-- ==== Sys2Proof/Word.lean ====
section
/-! DEFINITION. The word types of the block (30_encoding.md R31, R32; 00_scope.md R3, R4).

Every value is an unsigned number of a fixed width (R4), so it is a `BitVec`. The spec's arithmetic primitives
are Lean's own on `BitVec`, one for one (00_scope.md R5 to R7):
`shr_N(v, k)` is `v >>> k` (logical), `xor_N` is `^^^`, `and_N` is `&&&`, `not_N` is `~~~`, `zext_N(v)` is
`v.setWidth N` (N at least the width of v), `v[i]` is `v.getLsbD i`, a slice `v[hi:lo]` is `v.extractLsb' lo (hi-lo+1)`. -/

namespace Sys2Proof

/-- A byte, also an index of a table memory (00_scope.md R3, 20_memory.md R20). -/
abbrev Byte := BitVec 8

/-- A command word CW (30_encoding.md R31). -/
abbrev CmdWord := BitVec 48

/-- A response word RSP (30_encoding.md R32). -/
abbrev RspWord := BitVec 34

end Sys2Proof
end

