-- ==== Sys2Proof/Config.lean ====
section
/-! DEFINITION. The constants of this hardware (00_scope.md R3) and the two instances of the generic form
(43_session_protocol.md R74). No parameter is left open that a rule depends on: `transport` and timing
(92_eei_decisions.md D13, D18) have no counterpart here. -/

namespace Sys2Proof.Config

/-- N_ENTRIES. -/
abbrev nEntries : Nat := 256

/-- N_ITER. -/
abbrev nIter : Nat := 8

/-- POLY16, reflected form. -/
def poly16 : BitVec 16 := 0xA001

/-- POLY32, reflected form. -/
def poly32 : BitVec 32 := 0xEDB88320

/-- INIT16 (host side). -/
def init16 : BitVec 16 := 0x0000

/-- INIT32 (host side). -/
def init32 : BitVec 32 := 0xFFFFFFFF

/-- XOROUT16: CRC16 has no finalization step. -/
def xorout16 : BitVec 16 := 0x0000

/-- XOROUT32: CRC32 is finalized by complement. -/
def xorout32 : BitVec 32 := 0xFFFFFFFF

/-- The record of the generic form: width, polynomial, initial value, finalization (R74). -/
structure CrcParams where
  width  : Nat
  poly   : BitVec width
  init   : BitVec width
  xorout : BitVec width
  deriving DecidableEq, Repr

/-- `(W16, POLY16, INIT16, XOROUT16)` (R74). -/
def crc16Params : CrcParams := ⟨16, poly16, init16, xorout16⟩

/-- `(W32, POLY32, INIT32, XOROUT32)` (R74). -/
def crc32Params : CrcParams := ⟨32, poly32, init32, xorout32⟩

end Sys2Proof.Config
end

