-- ==== Sys2Proof/Syntax.lean ====
section
/-! DEFINITION. The six commands with their operands (30_encoding.md R30): one constructor per row of
spec/opcode_table.json. The operation level is the normative one (R30, 92_eei_decisions.md D23). -/

namespace Sys2Proof

/-- A command of the block, which plays the role of an instruction (00_scope.md section 8). -/
inductive Instr where
  /-- `BLD16`: build the CRC16 table (40_table_builder.md R42). -/
  | bld16
  /-- `UPD16 crc, byte`: advance a CRC16 running value by one byte (41_updater.md R52). -/
  | upd16 (crc : BitVec 16) (byte : Byte)
  /-- `RDT16 idx`: read one entry of the CRC16 table (42_table_read.md R60). -/
  | rdt16 (idx : Byte)
  /-- `BLD32`: build the CRC32 table (40_table_builder.md R43). -/
  | bld32
  /-- `UPD32 crc, byte`: advance a CRC32 running value by one byte (41_updater.md R53). -/
  | upd32 (crc : BitVec 32) (byte : Byte)
  /-- `RDT32 idx`: read one entry of the CRC32 table (42_table_read.md R61). -/
  | rdt32 (idx : Byte)
  deriving DecidableEq, Repr

end Sys2Proof
end

