-- ==== Sys2Proof/WellFormed.lean ====
section
/-! DEFINITION. When a command is well-formed (30_encoding.md R35): each operand lies in the range of its width.
The operand types already have exactly the operands' widths, so every `Instr` passes
(60_exceptions.md R82: "at the operation level ... every input is well-formed"); what can be ill-formed is a number offered as an
operand (`operandFits`) and a command word (`wellFormedWord` of Decode.lean, R36). -/

namespace Sys2Proof

/-- The number `n` is a value of a `w`-bit operand (R35). -/
def operandFits (w n : Nat) : Bool := decide (n < 2 ^ w)

/-- Every operand is in its range (R35). -/
def Instr.wellFormed : Instr → Bool
  | .bld16 => true
  | .upd16 crc byte => operandFits 16 crc.toNat && operandFits 8 byte.toNat
  | .rdt16 idx => operandFits 8 idx.toNat
  | .bld32 => true
  | .upd32 crc byte => operandFits 32 crc.toNat && operandFits 8 byte.toNat
  | .rdt32 idx => operandFits 8 idx.toNat

end Sys2Proof
end

