-- ==== Sys2Proof/Decode.lean ====
section
/-! DEFINITION. The command word: its fields, the six patterns, the total decoder, the encoder
(30_encoding.md R31, R33 to R37; opcode_table.json). Which of R36's conditions a refused word meets is named by
`Illegal`; the block's answer does not depend on it (R82), see notes/assumptions/6.md. -/

namespace Sys2Proof

/-! ## Fields (R31) -/

/-- `op = CW[47:44]`. -/
def opField (cw : CmdWord) : BitVec 4 := cw.extractLsb' 44 4

/-- `rsv = CW[43:40]`. -/
def rsvField (cw : CmdWord) : BitVec 4 := cw.extractLsb' 40 4

/-- `crc = CW[39:8]`. -/
def crcField (cw : CmdWord) : BitVec 32 := cw.extractLsb' 8 32

/-- The low half of the crc field, `CW[23:8]`: UPD16's operand (R35). -/
def crcLowField (cw : CmdWord) : BitVec 16 := cw.extractLsb' 8 16

/-- The high half of the crc field, `CW[39:24]`: 0 in UPD16 (R35). -/
def crcHighField (cw : CmdWord) : BitVec 16 := cw.extractLsb' 24 16

/-- `byte = CW[7:0]`, also `idx`. -/
def byteField (cw : CmdWord) : Byte := cw.extractLsb' 0 8

/-! ## Legal and illegal words (R33, R36) -/

/-- The operation code selects a command (R33): not `0x0`, `0x4`, `0x8..0xF`. -/
def opAssigned (cw : CmdWord) : Bool :=
  opField cw == 0x1 || opField cw == 0x2 || opField cw == 0x3
    || opField cw == 0x5 || opField cw == 0x6 || opField cw == 0x7

/-- The operand bits that the word's command does not use are 0 (R36). A word whose operation code selects no
command has no such bits. -/
def unusedBitsClear (cw : CmdWord) : Bool :=
  if opField cw = 0x1 ∨ opField cw = 0x5 then crcField cw == 0 && byteField cw == 0
  else if opField cw = 0x3 ∨ opField cw = 0x7 then crcField cw == 0
  else if opField cw = 0x2 then crcHighField cw == 0
  else true

/-- The word is legal, by R36's own list of what makes a word illegal. `decode` does not use it: that the two
agree is a statement about the model. -/
def wellFormedWord (cw : CmdWord) : Bool :=
  opAssigned cw && rsvField cw == 0 && unusedBitsClear cw

/-- What makes a word illegal: the first of R36's conditions that holds. -/
inductive Illegal where
  /-- `op` is `0x0`, `0x4` or `0x8..0xF`. -/
  | reservedOp
  /-- `rsv` is not 0. -/
  | reservedBits
  /-- A bit is set in an operand field that the command does not use. -/
  | unusedOperandBits
  deriving DecidableEq, Repr

/-- The name of the first of R36's conditions that an illegal word meets. -/
def illegalReason (cw : CmdWord) : Illegal :=
  if !opAssigned cw then .reservedOp
  else if rsvField cw != 0 then .reservedBits
  else .unusedOperandBits

/-! ## The six patterns (R34) -/

/-- A row of the opcode table: a word is the command exactly when `and_48(CW, mask) = bits`. -/
structure Row where
  mnemonic : String
  bits : CmdWord
  mask : CmdWord
  deriving DecidableEq, Repr

/-- The word matches the row's pattern. -/
def Row.hits (r : Row) (cw : CmdWord) : Bool := cw &&& r.mask == r.bits

/-- R34's line for `BLD16`. -/
def rowBld16 : Row := ⟨"BLD16", 0x100000000000, 0xFFFFFFFFFFFF⟩

/-- R34's line for `UPD16`. -/
def rowUpd16 : Row := ⟨"UPD16", 0x200000000000, 0xFFFFFF000000⟩

/-- R34's line for `RDT16`. -/
def rowRdt16 : Row := ⟨"RDT16", 0x300000000000, 0xFFFFFFFFFF00⟩

/-- R34's line for `BLD32`. -/
def rowBld32 : Row := ⟨"BLD32", 0x500000000000, 0xFFFFFFFFFFFF⟩

/-- R34's line for `UPD32`. -/
def rowUpd32 : Row := ⟨"UPD32", 0x600000000000, 0xFF0000000000⟩

/-- R34's line for `RDT32`. -/
def rowRdt32 : Row := ⟨"RDT32", 0x700000000000, 0xFFFFFFFFFF00⟩

/-- The opcode table, in R34's order. -/
def opcodeTable : List Row := [rowBld16, rowUpd16, rowRdt16, rowBld32, rowUpd32, rowRdt32]

/-- The row of a command. -/
def rowOf : Instr → Row
  | .bld16 => rowBld16
  | .upd16 _ _ => rowUpd16
  | .rdt16 _ => rowRdt16
  | .bld32 => rowBld32
  | .upd32 _ _ => rowUpd32
  | .rdt32 _ => rowRdt32

/-! ## The decoder (R35, R37) -/

/-- The command a word stands for, or the name of what makes the word illegal. Total, and a function of the word
alone (R37). -/
def decode (cw : CmdWord) : Except Illegal Instr :=
  if rowBld16.hits cw then .ok .bld16
  else if rowUpd16.hits cw then .ok (.upd16 (crcLowField cw) (byteField cw))
  else if rowRdt16.hits cw then .ok (.rdt16 (byteField cw))
  else if rowBld32.hits cw then .ok .bld32
  else if rowUpd32.hits cw then .ok (.upd32 (crcField cw) (byteField cw))
  else if rowRdt32.hits cw then .ok (.rdt32 (byteField cw))
  else .error (illegalReason cw)

/-! ## The encoder (R35) -/

/-- `CW = {op, 0b0000, crc, byte}`. -/
def commandWord (op : BitVec 4) (crc : BitVec 32) (byte : Byte) : CmdWord :=
  op ++ (0 : BitVec 4) ++ crc ++ byte

/-- The word of a command, with `crc` and `byte` taken as 0 where the command has none. -/
def encode : Instr → CmdWord
  | .bld16 => commandWord 0x1 0 0
  | .upd16 crc byte => commandWord 0x2 (crc.setWidth 32) byte
  | .rdt16 idx => commandWord 0x3 0 idx
  | .bld32 => commandWord 0x5 0 0
  | .upd32 crc byte => commandWord 0x6 crc byte
  | .rdt32 idx => commandWord 0x7 0 idx

/-! ## The host's reading of an opcode-table row -/

/-- The command word whose bits are `w`, bit 0 the least significant, all bits from `nbits` up 0. There is none
where the row is longer than a command word (R31: exactly 48 bits) or `w` has a bit at or above `nbits`. -/
def tableWord (nbits w : Nat) : Option CmdWord :=
  if nbits ≤ 48 ∧ w < 2 ^ nbits then some (BitVec.ofNat 48 w) else none

/-- What the decoder reads from the table word `w` of `nbits` bits. -/
def decodeTableWord (nbits w : Nat) : Option Instr :=
  match tableWord nbits w with
  | some cw => (decode cw).toOption
  | none => none

end Sys2Proof
end

