-- ==== Sys2Proof/Machine/State.lean ====
section
/-! DEFINITION. The state: the block's four pieces (10_state.md R10 to R13), and the two ends of its command
interface (30_encoding.md R31, R32), which the spec counts as no state of the block (R10) and which the model holds so
that one step is a function of one state (notes/assumptions/2.md, 3.md). -/

namespace Sys2Proof.Machine

/-- The status of a response (30_encoding.md R32). Status code 3 is never produced, so it has no name here
(93_implementation_defined.md U5). -/
inductive Status where
  /-- 0: no fault. -/
  | ok
  /-- 1: the word matches no command pattern (60_exceptions.md R82). -/
  | errIllegal
  /-- 2: the table the command must read has not been built since the last reset (60_exceptions.md R83). -/
  | errNotBuilt
  deriving DecidableEq, Repr

/-- A response: a status and a 32-bit value (30_encoding.md R32). -/
structure Response where
  status : Status
  value  : BitVec 32
  deriving DecidableEq, Repr

/-- A table memory with entries of `w` bits (20_memory.md R20, R21): (index, entry) pairs, indexes strictly rising and
below 256 (`Memory.wf`). An index that is not listed holds no value (10_state.md R19). -/
abbrev Memory (w : Nat) := List (Nat × BitVec w)

/-- Why the machine stops. The spec's own two faults are responses, after which the block goes on (60_exceptions.md R86,
R87): see `Status`. -/
inductive Fault where
  /-- Raised by `UPD16`, `RDT16`, `UPD32`, `RDT32` when the built flag is 1 and yet the entry to be read holds no
  value. SAFE: the spec excludes such a state (10_state.md R13, R19), no run from reset reaches one, and the machine only
  stops. -/
  | entryHoldsNoValue
  deriving DecidableEq, Repr

/-- Why a step has no meaning. -/
inductive Refusal where
  /-- Raised by an arm of `exec` whose instruction has no meaning yet; no arm of this model does. SAFE: the
  machine only stops. -/
  | notModelled (mnemonic : String)
  deriving DecidableEq, Repr

/-- The machine. -/
structure State where
  /-- `T16`, the CRC16 table (10_state.md R11). -/
  t16       : Memory 16
  /-- `T32`, the CRC32 table (10_state.md R12). -/
  t32       : Memory 32
  /-- `BUILT16` (10_state.md R13). -/
  built16   : Bool
  /-- `BUILT32` (10_state.md R13). -/
  built32   : Bool
  /-- The model's own: the command words the host has still to issue, the next one first (20_memory.md R25). -/
  commands  : List CmdWord
  /-- The model's own: the responses given, the oldest first (30_encoding.md R32). -/
  responses : List Response
  deriving DecidableEq, Repr

/-- The machine after reset (10_state.md R19): both flags 0, no table entry holds a value; the host has issued
nothing and nothing has been answered. -/
def State.reset : State :=
  { t16 := [], t32 := [], built16 := false, built32 := false, commands := [], responses := [] }

end Sys2Proof.Machine
end

