-- ==== Sys2Proof/Machine/Ops.lean ====
section
/-! DEFINITION. The named operations: a table memory's reads and writes (20_memory.md R20 to R22), the command
interface's two ends (20_memory.md R25, 30_encoding.md R32), fault delivery (60_exceptions.md R86), the reset event
(70_reset_and_hazards.md R95). -/

namespace Sys2Proof.Machine

/-! ## Table memories -/

/-- The canonical form: indexes strictly rising, each in 0..255 (20_memory.md R20). -/
abbrev Memory.wf {w : Nat} (m : Memory w) : Prop :=
  m.Pairwise (fun a b => a.1 < b.1) ∧ ∀ c ∈ m, c.1 < Config.nEntries

/-- `T[i]`, whole entry; `none` where the entry holds no value (20_memory.md R21, 10_state.md R19). -/
def Memory.read {w : Nat} : Memory w → Byte → Option (BitVec w)
  | [], _ => none
  | (k, v) :: m, i => if k = i.toNat then some v else Memory.read m i

/-- `T[i] <- v`, whole entry (20_memory.md R21). -/
def Memory.write {w : Nat} : Memory w → Byte → BitVec w → Memory w
  | [], i, v => [(i.toNat, v)]
  | (k, u) :: m, i, v =>
    if i.toNat < k then (i.toNat, v) :: (k, u) :: m
    else if k = i.toNat then (k, v) :: m
    else (k, u) :: Memory.write m i v

/-- `for i in 0..255: T[i] <- f(i)` (40_table_builder.md R42, R43). Irreducible, so that comparing two states does not
unroll the 256 writes; Laws/Memory.lean says what it does. -/
@[irreducible] def Memory.writeAll {w : Nat} (f : Byte → BitVec w) (m : Memory w) : Memory w :=
  (List.range Config.nEntries).foldl (fun t i => t.write (BitVec.ofNat 8 i) (f (BitVec.ofNat 8 i))) m

/-- Fill `T16`. -/
def writeT16 (f : Byte → BitVec 16) (s : State) : State := { s with t16 := s.t16.writeAll f }

/-- Fill `T32`. -/
def writeT32 (f : Byte → BitVec 32) (s : State) : State := { s with t32 := s.t32.writeAll f }

/-! ## Responses and faults -/

/-- `respond(status, value)` (30_encoding.md R32). -/
def respond (st : Status) (v : BitVec 32) (s : State) : State :=
  { s with responses := s.responses ++ [⟨st, v⟩] }

/-- `raise <Fault>`: fault delivery, the block's whole exception entry (60_exceptions.md R86). The response carries the
status and the value 0 and nothing else changes: there is nothing to save, no mode, no handler. There is no
return from it, because it enters nothing (R87): the next command is simply the next step. -/
def raiseFault (st : Status) (s : State) : State := respond st 0 s

/-- The answer to an illegal word, whichever of R36's conditions it meets (60_exceptions.md R82). -/
def raiseIllegal (_why : Illegal) (s : State) : State := raiseFault .errIllegal s

/-! ## Commands -/

/-- The next command word the host issues, and the machine with that word taken (20_memory.md R25); `none` when the host
issues nothing. -/
def takeCommand (s : State) : Option (CmdWord × State) :=
  match s.commands with
  | [] => none
  | cw :: rest => some (cw, { s with commands := rest })

/-- Make `cw` the next command word the host issues. -/
def issueFirst (cw : CmdWord) (s : State) : State := { s with commands := cw :: s.commands }

/-- Between commands the block is idle and holds its state (60_exceptions.md R90). -/
def idle (s : State) : State := s

/-! ## Reset -/

/-- What the reset event does to the block (70_reset_and_hazards.md R95, 10_state.md R19). No step takes it: the spec has
no reset step during a run. -/
def resetBlock (s : State) : State :=
  { State.reset with commands := s.commands, responses := s.responses }

end Sys2Proof.Machine
end

