-- ==== Sys2Proof/Machine/Operands.lean ====
section
/-! DEFINITION. The forms an operand takes on its way to a table entry, and the forms of a result
(20_memory.md R22, 41_updater.md R50, R51, 30_encoding.md R32). The index of `RDTn` is its operand as it stands
(42_table_read.md R60, R61). -/

namespace Sys2Proof.Machine

/-- `(crc XOR byte) & 0xFF`, as an 8-bit index: the byte zero-extended to the width of `crc`
(41_updater.md R50, R51; 00_scope.md R6). -/
def updIndex {w : Nat} (crc : BitVec w) (byte : Byte) : Byte :=
  ((crc ^^^ byte.setWidth w) &&& BitVec.setWidth w (0xFF : Byte)).setWidth 8

/-- `(crc >> 8) XOR entry` (41_updater.md R50, R51). -/
def updCombine {w : Nat} (crc entry : BitVec w) : BitVec w := (crc >>> 8) ^^^ entry

/-- The response value of a 16-bit result: `zext_32` (30_encoding.md R32). -/
def value16 (r : BitVec 16) : BitVec 32 := r.setWidth 32

/-- The response value of a 32-bit result (30_encoding.md R32). -/
def value32 (r : BitVec 32) : BitVec 32 := r

end Sys2Proof.Machine
end

