-- ==== Sys2Proof/Machine/Flags.lean ====
section
/-! DEFINITION. The built flags (10_state.md R13): the only flags the block has. `BLDn` sets one, reset clears
both, `UPDn` and `RDTn` test one; no command sets a flag as a side effect of computing a value. -/

namespace Sys2Proof.Machine

/-- `BUILT16 <- 1` (40_table_builder.md R42). -/
def setBuilt16 (s : State) : State := { s with built16 := true }

/-- `BUILT32 <- 1` (40_table_builder.md R43). -/
def setBuilt32 (s : State) : State := { s with built32 := true }

/-- The common shape of `UPDn` and `RDTn`: `if BUILTn = 0 then raise ERR_NOT_BUILT`, else answer `(OK, value)`
(60_exceptions.md R83). `value` is what the entry read gives, `none` where the entry holds no value. -/
def answerFromTable (built : Bool) (value : Option (BitVec 32)) (s : State) : Host.Outcome State Fault Refusal :=
  if built then
    match value with
    | some v => .next (respond .ok v s)
    | none => .fault .entryHoldsNoValue
  else .next (raiseFault .errNotBuilt s)

end Sys2Proof.Machine
end

