-- ==== Sys2Proof/Machine/TableBuilder.lean ====
section
/-! DEFINITION. The table builders (40_table_builder.md): the entry functions as the document prescribes them, the
generic seeded form of its section 5, and the commands `BLD16`, `BLD32`. -/

namespace Sys2Proof.Machine

/-- `repeat k times` (00_scope.md section 7.2). -/
def iterate {α : Type} (f : α → α) : Nat → α → α
  | 0, a => a
  | k + 1, a => iterate f k (f a)

/-- One shift of the reflected division: right by 1, the polynomial XORed in when the bit shifted out was 1
(40_table_builder.md R41 and section 5). -/
def crcShift {w : Nat} (poly v : BitVec w) : BitVec w :=
  if v.getLsbD 0 then (v >>> 1) ^^^ poly else v >>> 1

/-- `entry(W, POLY, i)`: the working value seeded with `i` (40_table_builder.md section 5). -/
def seededEntry {w : Nat} (poly : BitVec w) (i : Byte) : BitVec w :=
  iterate (crcShift poly) Config.nIter (i.setWidth w)

/-- One iteration of the CRC16 procedure on (working value, shifting copy): the test reads both as they stand,
then the working value is updated, then the copy is shifted (40_table_builder.md R40). -/
def copyShift {w : Nat} (poly : BitVec w) (wc : BitVec w × Byte) : BitVec w × Byte :=
  (if (wc.1 ^^^ wc.2.setWidth w).getLsbD 0 then (wc.1 >>> 1) ^^^ poly else wc.1 >>> 1, wc.2 >>> 1)

/-- The CRC16 procedure for any polynomial: working value seeded to 0, shifting copy of `i`
(40_table_builder.md R40). -/
def copyEntry {w : Nat} (poly : BitVec w) (i : Byte) : BitVec w :=
  (iterate (copyShift poly) Config.nIter (0, i)).1

/-- `entry16(i)` (40_table_builder.md R40). -/
def entry16 (i : Byte) : BitVec 16 := copyEntry Config.poly16 i

/-- `entry32(i)` (40_table_builder.md R41). -/
def entry32 (i : Byte) : BitVec 32 := seededEntry Config.poly32 i

/-- `BLD16` (40_table_builder.md R42). -/
def execBld16 (s : State) : Host.Outcome State Fault Refusal :=
  .next (respond .ok 0 (setBuilt16 (writeT16 entry16 s)))

/-- `BLD32` (40_table_builder.md R43). -/
def execBld32 (s : State) : Host.Outcome State Fault Refusal :=
  .next (respond .ok 0 (setBuilt32 (writeT32 entry32 s)))

end Sys2Proof.Machine
end

