-- ==== Sys2Proof/Machine/Updater.lean ====
section
/-! DEFINITION. The incremental updaters (41_updater.md): the generic update function, its two instances, and the
commands `UPD16`, `UPD32`. -/

namespace Sys2Proof.Machine

/-- `upd(W, T, crc, b)`, for a table given as a function of the index (41_updater.md section 2). -/
def upd {w : Nat} (T : Byte → BitVec w) (crc : BitVec w) (b : Byte) : BitVec w :=
  updCombine crc (T (updIndex crc b))

/-- `upd16(T, crc, b)` (41_updater.md R50). -/
def upd16 (T : Byte → BitVec 16) (crc : BitVec 16) (b : Byte) : BitVec 16 := upd T crc b

/-- `upd32(T, crc, b)` (41_updater.md R51). -/
def upd32 (T : Byte → BitVec 32) (crc : BitVec 32) (b : Byte) : BitVec 32 := upd T crc b

/-- `UPD16 crc, byte` (41_updater.md R52): one entry of `T16` is read, no state is written. -/
def execUpd16 (crc : BitVec 16) (byte : Byte) (s : State) : Host.Outcome State Fault Refusal :=
  answerFromTable s.built16 ((s.t16.read (updIndex crc byte)).map fun e => value16 (updCombine crc e)) s

/-- `UPD32 crc, byte` (41_updater.md R53): one entry of `T32` is read, no state is written. -/
def execUpd32 (crc : BitVec 32) (byte : Byte) (s : State) : Host.Outcome State Fault Refusal :=
  answerFromTable s.built32 ((s.t32.read (updIndex crc byte)).map fun e => value32 (updCombine crc e)) s

end Sys2Proof.Machine
end

