-- ==== Sys2Proof/Machine/TableRead.lean ====
section
/-! DEFINITION. Reading a table back (42_table_read.md): the commands `RDT16`, `RDT32`. -/

namespace Sys2Proof.Machine

/-- `RDT16 idx` (42_table_read.md R60). -/
def execRdt16 (idx : Byte) (s : State) : Host.Outcome State Fault Refusal :=
  answerFromTable s.built16 ((s.t16.read idx).map value16) s

/-- `RDT32 idx` (42_table_read.md R61). -/
def execRdt32 (idx : Byte) (s : State) : Host.Outcome State Fault Refusal :=
  answerFromTable s.built32 ((s.t32.read idx).map value32) s

end Sys2Proof.Machine
end

