-- ==== Sys2Proof/Machine/Dispatch.lean ====
section
/-! DEFINITION. One arm per command: a direct call of its meaning. -/

namespace Sys2Proof.Machine

def exec (i : Instr) (s : State) : Host.Outcome State Fault Refusal :=
  match i with
  | .bld16 => Sys2Proof.Machine.execBld16 s
  | .upd16 crc byte => Sys2Proof.Machine.execUpd16 crc byte s
  | .rdt16 idx => Sys2Proof.Machine.execRdt16 idx s
  | .bld32 => Sys2Proof.Machine.execBld32 s
  | .upd32 crc byte => Sys2Proof.Machine.execUpd32 crc byte s
  | .rdt32 idx => Sys2Proof.Machine.execRdt32 idx s

end Sys2Proof.Machine
end

