-- ==== Sys2Proof/Machine/Step.lean ====
section
/-! DEFINITION. One step (70_reset_and_hazards.md R104): the next command word the host issues is taken, decoded and
executed to completion, its response included (20_memory.md R25); an illegal word is answered from the decode
alone (60_exceptions.md R82, R84); with no word issued the block is idle (R90). The block has no program counter
(10_state.md R17): the host's list of commands stands where a fetch would read. -/

namespace Sys2Proof.Machine

/-- One step of the machine. -/
def step (s : State) : Host.Outcome State Fault Refusal :=
  match takeCommand s with
  | none => .next (idle s)
  | some (cw, s') =>
    match decode cw with
    | .ok i => exec i s'
    | .error why => .next (raiseIllegal why s')

/-- `s` with the table word `w` of `nbits` bits as the very next command the host issues (notes/assumptions/2.md,
4.md); `s` itself where there is no such command word. -/
def State.withFetchWord (s : State) (nbits w : Nat) : State :=
  match tableWord nbits w with
  | some cw => issueFirst cw s
  | none => s

end Sys2Proof.Machine
end

