-- ==== Sys2Proof/Machine/Written.lean ====
section
/-! DEFINITION. The written form of a command (30_encoding.md R38): its mnemonic, then its operands, comma-separated,
as hexadecimal numerals of as many digits as their width has (00_scope.md section 7.1). -/

namespace Sys2Proof.Machine

/-- One hexadecimal digit, upper case. -/
def hexDigit (d : BitVec 4) : Char :=
  if d.toNat < 10 then Char.ofNat (48 + d.toNat) else Char.ofNat (55 + d.toNat)

/-- The low `k` hexadecimal digits of a value, the most significant first. -/
def hexDigits {w : Nat} (v : BitVec w) : Nat → List Char
  | 0 => []
  | k + 1 => hexDigit (v.extractLsb' (4 * k) 4) :: hexDigits v k

/-- A hexadecimal numeral of `k` digits. -/
def hexNumeral {w : Nat} (v : BitVec w) (k : Nat) : List Char := '0' :: 'x' :: hexDigits v k

/-- The written form of a command, as characters. -/
def written : Instr → List Char
  | .bld16 => ['B', 'L', 'D', '1', '6']
  | .upd16 crc byte => ['U', 'P', 'D', '1', '6', ' '] ++ hexNumeral crc 4 ++ [',', ' '] ++ hexNumeral byte 2
  | .rdt16 idx => ['R', 'D', 'T', '1', '6', ' '] ++ hexNumeral idx 2
  | .bld32 => ['B', 'L', 'D', '3', '2']
  | .upd32 crc byte => ['U', 'P', 'D', '3', '2', ' '] ++ hexNumeral crc 8 ++ [',', ' '] ++ hexNumeral byte 2
  | .rdt32 idx => ['R', 'D', 'T', '3', '2', ' '] ++ hexNumeral idx 2

end Sys2Proof.Machine
end

