-- ==== Sys2Proof/Machine/ResponseWord.lean ====
section
/-! DEFINITION. The 34-bit response word (30_encoding.md R32) and a host's reading of one
(93_implementation_defined.md U5). -/

namespace Sys2Proof.Machine

/-- The status codes (30_encoding.md R32, 60_exceptions.md R81). -/
def statusCode : Status → BitVec 2
  | .ok => 0
  | .errIllegal => 1
  | .errNotBuilt => 2

/-- The status a code names; code 3 is refused (U5). -/
def statusOfCode (c : BitVec 2) : Option Status :=
  if c = 0 then some .ok
  else if c = 1 then some .errIllegal
  else if c = 2 then some .errNotBuilt
  else none

/-- `RSP`: status in bits 33:32, value in bits 31:0. -/
def responseWord (r : Response) : RspWord := statusCode r.status ++ r.value

/-- The response a word carries; `none` for status code 3. -/
def readResponseWord (rsp : RspWord) : Option Response :=
  (statusOfCode (rsp.extractLsb' 32 2)).map fun st => ⟨st, rsp.extractLsb' 0 32⟩

end Sys2Proof.Machine
end

