-- ==== Sys2Proof/Machine/Checksum.lean ====
section
/-! DEFINITION. The checksums as functions of a byte sequence (43_session_protocol.md R68, R74). They are the host's, not
the block's: none adds a command or state. -/

namespace Sys2Proof.Machine

/-- `fold_n(x, B)`: one update per byte, in stream order, each result the next running value
(43_session_protocol.md R66, R68). -/
def foldBytes {w : Nat} (T : Byte → BitVec w) : BitVec w → List Byte → BitVec w
  | x, [] => x
  | x, b :: bs => foldBytes T (upd T x b) bs

/-- Finalization of CRC16: the running value as it is (43_session_protocol.md R67). -/
def finalize16 (x : BitVec 16) : BitVec 16 := x

/-- Finalization of CRC32: bitwise complement (43_session_protocol.md R67). -/
def finalize32 (x : BitVec 32) : BitVec 32 := ~~~x

/-- `CRC16(B)`, with the pure entries in place of the built table (43_session_protocol.md R68). -/
def crc16 (bs : List Byte) : BitVec 16 := finalize16 (foldBytes entry16 Config.init16 bs)

/-- `CRC32(B)`, with the pure entries in place of the built table (43_session_protocol.md R68). -/
def crc32 (bs : List Byte) : BitVec 32 := finalize32 (foldBytes entry32 Config.init32 bs)

/-- `CRC_n(B) = xor(fold_n(INIT_n, B), XOROUT_n)` over a parameter record, its table built by the seeded form
(43_session_protocol.md R74, 40_table_builder.md section 5). -/
def crcOf (p : Config.CrcParams) (bs : List Byte) : BitVec p.width :=
  foldBytes (seededEntry p.poly) p.init bs ^^^ p.xorout

end Sys2Proof.Machine
end

