-- ==== Sys2Proof/Machine/Session.lean ====
section
/-! DEFINITION. The host's protocol over the block's steps (43_session_protocol.md R65 to R71, 70_reset_and_hazards.md R96):
build the tables needed, then per session set the running values, stream the bytes, finalize. These are host
functions: the block holds no running value (10_state.md R15). -/

namespace Sys2Proof.Machine

/-- The variants a host has active (43_session_protocol.md R65). -/
structure Variants where
  crc16 : Bool
  crc32 : Bool
  deriving DecidableEq, Repr

/-- The host's running values, one per active variant (43_session_protocol.md R65); `none` for a variant that is not
active. -/
structure Running where
  crc16 : Option (BitVec 16)
  crc32 : Option (BitVec 32)
  deriving DecidableEq, Repr

/-- Issue one command and take its response: one step of the machine with the command's word as the next. -/
def transact (i : Instr) (s : State) : Option (Response × State) :=
  match step (issueFirst (encode i) s) with
  | .next t => t.responses.getLast?.map fun r => (r, t)
  | .fault _ => none
  | .refused _ => none

/-- `x <- COMMAND`: issue the command, require status `OK`, take the value (30_encoding.md R38). -/
def callOk (i : Instr) (s : State) : Option (BitVec 32 × State) :=
  match transact i s with
  | some (r, t) => if r.status = .ok then some (r.value, t) else none
  | none => none

/-- Build the tables of the active variants (70_reset_and_hazards.md R96). -/
def buildTables (v : Variants) (s : State) : Option State :=
  match (if v.crc16 then (callOk .bld16 s).map Prod.snd else some s) with
  | some t => if v.crc32 then (callOk .bld32 t).map Prod.snd else some t
  | none => none

/-- The running values at the start of a session (43_session_protocol.md R65). -/
def startSession (v : Variants) : Running :=
  { crc16 := if v.crc16 then some Config.init16 else none
    crc32 := if v.crc32 then some Config.init32 else none }

/-- `crc16 <- UPD16 crc16, b` if CRC16 is active (43_session_protocol.md R66). -/
def advance16 (b : Byte) (x : Option (BitVec 16)) (s : State) : Option (Option (BitVec 16) × State) :=
  match x with
  | none => some (none, s)
  | some crc => (callOk (.upd16 crc b) s).map fun p => (some (p.1.setWidth 16), p.2)

/-- `crc32 <- UPD32 crc32, b` if CRC32 is active (43_session_protocol.md R66). -/
def advance32 (b : Byte) (x : Option (BitVec 32)) (s : State) : Option (Option (BitVec 32) × State) :=
  match x with
  | none => some (none, s)
  | some crc => (callOk (.upd32 crc b) s).map fun p => (some p.1, p.2)

/-- One consumed byte: one update of each active variant (43_session_protocol.md R66, R70). -/
def advance (b : Byte) (r : Running) (s : State) : Option (Running × State) :=
  match advance16 b r.crc16 s with
  | none => none
  | some (x, t) => (advance32 b r.crc32 t).map fun p => (⟨x, p.1⟩, p.2)

/-- The bytes, one at a time in stream order (43_session_protocol.md R66). -/
def streamBytes : List Byte → Running → State → Option (Running × State)
  | [], r, s => some (r, s)
  | b :: bs, r, s =>
    match advance b r s with
    | none => none
    | some (r', t) => streamBytes bs r' t

/-- Finalization, once, after the last byte (43_session_protocol.md R67). -/
def finishSession (r : Running) : Running :=
  { crc16 := r.crc16.map finalize16, crc32 := r.crc32.map finalize32 }

/-- A whole session over a byte sequence (43_session_protocol.md R65 to R67): the results of the active variants. -/
def session (v : Variants) (bs : List Byte) (s : State) : Option (Running × State) :=
  (streamBytes bs (startSession v) s).map fun p => (finishSession p.1, p.2)

end Sys2Proof.Machine
end

