-- ==== Sys2Proof/Safety.lean ====
section
/-! DEFINITION. The terms the claims use: what counts as a good state of the block, as the same block state, as a host
that keeps its duty, and as a run. -/

namespace Sys2Proof.Safety

open Sys2Proof.Machine

/-- Both table memories are in their canonical form. -/
abbrev Canonical (s : State) : Prop := s.t16.wf ∧ s.t32.wf

/-- One half of the block is as 10_state.md R13 says: with the flag 1 every entry holds its defined value, with the flag
0 none holds a value; and the memory is canonical. -/
structure HalfInv {w : Nat} (m : Memory w) (built : Bool) (entry : Byte → BitVec w) : Prop where
  wf : m.wf
  holds : built = true → ∀ i, m.read i = some (entry i)
  empty : built = false → ∀ i, m.read i = none

/-- The block's invariant (10_state.md R13, 40_table_builder.md R47). -/
structure BlockInv (s : State) : Prop where
  half16 : HalfInv s.t16 s.built16 entry16
  half32 : HalfInv s.t32 s.built32 entry32

/-- The CRC16 half `(T16, BUILT16)` is the same. -/
abbrev SameHalf16 (s t : State) : Prop := t.t16 = s.t16 ∧ t.built16 = s.built16

/-- The CRC32 half `(T32, BUILT32)` is the same. -/
abbrev SameHalf32 (s t : State) : Prop := t.t32 = s.t32 ∧ t.built32 = s.built32

/-- The block's state `S` is the same (10_state.md R10). -/
abbrev SameBlock (s t : State) : Prop := SameHalf16 s t ∧ SameHalf32 s t

/-- `s` after one more response and nothing else. -/
def answered (s : State) (st : Status) (v : BitVec 32) : State :=
  { s with responses := s.responses ++ [⟨st, v⟩] }

/-- The command is one of `BLD16`, `UPD16`, `RDT16` (20_memory.md R28). -/
def isCrc16 : Instr → Bool
  | .bld16 => true
  | .upd16 _ _ => true
  | .rdt16 _ => true
  | .bld32 => false
  | .upd32 _ _ => false
  | .rdt32 _ => false

/-- The command is one of `BLD32`, `UPD32`, `RDT32` (20_memory.md R28). -/
def isCrc32 (i : Instr) : Bool := !isCrc16 i

/-- The command is a build. -/
def isBuild : Instr → Bool
  | .bld16 => true
  | .upd16 _ _ => false
  | .rdt16 _ => false
  | .bld32 => true
  | .upd32 _ _ => false
  | .rdt32 _ => false

/-- The table the command must read has been built; a build needs none (60_exceptions.md R83). -/
def tableReady (i : Instr) (s : State) : Bool :=
  match i with
  | .bld16 => true
  | .upd16 _ _ => s.built16
  | .rdt16 _ => s.built16
  | .bld32 => true
  | .upd32 _ _ => s.built32
  | .rdt32 _ => s.built32

/-- The host's boot duty over a sequence of commands, given which tables are built before it
(70_reset_and_hazards.md R96): every `UPDn` and `RDTn` comes after a `BLDn`. -/
def bootDuty : Bool → Bool → List Instr → Bool
  | _, _, [] => true
  | b16, b32, i :: is =>
    match i with
    | .bld16 => bootDuty true b32 is
    | .upd16 _ _ => b16 && bootDuty b16 b32 is
    | .rdt16 _ => b16 && bootDuty b16 b32 is
    | .bld32 => bootDuty b16 true is
    | .upd32 _ _ => b32 && bootDuty b16 b32 is
    | .rdt32 _ => b32 && bootDuty b16 b32 is

/-- `s` with a host that has these command words to issue and with no response given yet. -/
def facing (s : State) (cws : List CmdWord) : State := { s with commands := cws, responses := [] }

/-- `k` steps of the machine, stopping at the first fault or refusal: `Host.Core.run` of `Sys2Proof.core`
(`Laws.run_eq_core`). -/
def run : Nat → State → Host.Outcome State Fault Refusal
  | 0, s => .next s
  | k + 1, s =>
    match step s with
    | .next t => run k t
    | .fault r => .fault r
    | .refused r => .refused r

/-- The machine after `k` steps, where none of them stops. -/
abbrev RunsTo (k : Nat) (s t : State) : Prop := run k s = .next t

/-- The status of the last response. -/
def lastStatus (s : State) : Option Status := s.responses.getLast?.map Response.status

/-- The step function of 70_reset_and_hazards.md R104 on the block's four reachable states, one per value of
`(BUILT16, BUILT32)`, with the pure entries in place of the tables (40_table_builder.md R47): the flags after the command, and
the response. It reads the word's fields itself (30_encoding.md R31, R36), without the machine's decoder. -/
def pureStep (f : Bool × Bool) (cw : CmdWord) : (Bool × Bool) × Response :=
  if wellFormedWord cw then
    if opField cw = 0x1 then ((true, f.2), ⟨.ok, 0⟩)
    else if opField cw = 0x5 then ((f.1, true), ⟨.ok, 0⟩)
    else if opField cw = 0x2 then
      (f, if f.1 then ⟨.ok, value16 (upd16 entry16 (crcLowField cw) (byteField cw))⟩ else ⟨.errNotBuilt, 0⟩)
    else if opField cw = 0x6 then
      (f, if f.2 then ⟨.ok, value32 (upd32 entry32 (crcField cw) (byteField cw))⟩ else ⟨.errNotBuilt, 0⟩)
    else if opField cw = 0x3 then
      (f, if f.1 then ⟨.ok, value16 (entry16 (byteField cw))⟩ else ⟨.errNotBuilt, 0⟩)
    else
      (f, if f.2 then ⟨.ok, value32 (entry32 (byteField cw))⟩ else ⟨.errNotBuilt, 0⟩)
  else (f, ⟨.errIllegal, 0⟩)

/-- `pureStep` over a sequence of command words: the flags after it, and the responses in order. -/
def pureRun : Bool × Bool → List CmdWord → (Bool × Bool) × List Response
  | f, [] => (f, [])
  | f, cw :: cws =>
    let p := pureStep f cw
    let q := pureRun p.1 cws
    (q.1, p.2 :: q.2)

/-- The bit-serial form of one update: the byte XORed into the low 8 bits, then eight shifts by 1
(41_updater.md section 5). -/
def bitSerial {w : Nat} (poly x : BitVec w) (b : Byte) : BitVec w :=
  iterate (crcShift poly) 8 (x ^^^ b.setWidth w)

/-- `f` on the next state, a stop unchanged. -/
def mapNext (f : State → State) : Host.Outcome State Fault Refusal → Host.Outcome State Fault Refusal
  | .next s => .next (f s)
  | .fault r => .fault r
  | .refused r => .refused r

end Sys2Proof.Safety
end

