-- ==== Sys2Proof/Certificates/Slice0/Obligations.lean ====
section
/-! DEFINITION. The statements about the machine, each from a rule of spec/. Statements quantify over every state; where
one holds only in states the block can be in, its premise is `BlockInv`, `HalfInv` or `Canonical`, which are stated to hold at
reset and to be kept by every step. The fields `commands` and `responses` are the model's own homes for the command words of
30_encoding.md R31 and the responses of R32 (notes/assumptions/2.md, 3.md): "answers (status, value)" is said as one response appended
to `responses`. -/

open Sys2Proof Sys2Proof.Machine Sys2Proof.Safety

/-! ## Reset and the invariants -/

/-- R19, R95: after reset both flags are 0, no entry of either table holds a value, and every command that would read
a table faults; the reset event puts any block into that state. -/
def Obligations.ResetLeavesNoTable : Prop :=
  (State.reset.built16 = false ∧ State.reset.built32 = false
    ∧ (∀ i, State.reset.t16.read i = none) ∧ (∀ i, State.reset.t32.read i = none))
  ∧ (∀ s, SameBlock State.reset (resetBlock s))
  ∧ (∀ i s, isBuild i = false → exec i (resetBlock s) = .next (answered (resetBlock s) .errNotBuilt 0))

/-- R13, R19: the block's invariant holds at reset. -/
def Obligations.BlockInvariantHoldsAtReset : Prop := BlockInv State.reset

/-- R13, R47: every step keeps the block's invariant: with a flag 1 its table holds exactly the defined entries, with a
flag 0 it holds none. -/
def Obligations.BlockInvariantKeptByStep : Prop :=
  ∀ s t, BlockInv s → step s = .next t → BlockInv t

/-- R20: every step keeps the table memories in their canonical form, from any state that has it (the flags play
no part). -/
def Obligations.CanonicalTablesKeptByStep : Prop :=
  ∀ s t, Canonical s → step s = .next t → Canonical t

/-- R47: once built, a table reads its defined entries and does not change over any run, whatever commands
it executes; a step that is not the variant's build leaves the table as it is, in any state, and one that is writes the defined
entries. -/
def Obligations.BuiltTableNeverChanges : Prop :=
  (∀ k s t, BlockInv s → RunsTo k s t →
    (s.built16 = true → t.built16 = true ∧ t.t16 = s.t16 ∧ ∀ i, t.t16.read i = some (entry16 i))
    ∧ (s.built32 = true → t.built32 = true ∧ t.t32 = s.t32 ∧ ∀ i, t.t32.read i = some (entry32 i)))
  ∧ ∀ s t, step s = .next t →
    (s.commands.head? ≠ some 0x100000000000 → t.t16 = s.t16)
    ∧ (s.commands.head? = some 0x100000000000 → ∀ i, t.t16.read i = some (entry16 i))
    ∧ (s.commands.head? ≠ some 0x500000000000 → t.t32 = s.t32)
    ∧ (s.commands.head? = some 0x500000000000 → ∀ i, t.t32.read i = some (entry32 i))

/-- R13: in one step a flag becomes 1 by its build command alone, and no step clears it. -/
def Obligations.FlagSetByItsBuildAlone : Prop :=
  ∀ s t, step s = .next t →
    (t.built16 = true ↔ s.built16 = true ∨ s.commands.head? = some 0x100000000000)
    ∧ (t.built32 = true ↔ s.built32 = true ∨ s.commands.head? = some 0x500000000000)

/-- R104: the block's good states are one per value of the two flags, and each is reached from reset. -/
def Obligations.FourReachableBlockStates : Prop :=
  (∀ s t, BlockInv s → BlockInv t → t.built16 = s.built16 → t.built32 = s.built32 → SameBlock s t)
  ∧ ∀ b16 b32, ∃ cws t, RunsTo cws.length (facing State.reset cws) t ∧ t.built16 = b16 ∧ t.built32 = b32

/-! ## The step -/

/-- A step runs the decoded command: the word at the head of the host's list is taken off it and its command executed; and
a word placed by `withFetchWord` is the next one (notes/assumptions/2.md: that the list stands in the state is the
model's choice). -/
def Obligations.StepRunsDecodedCommand : Prop :=
  (∀ s cw rest i, s.commands = cw :: rest → decode cw = .ok i → i.wellFormed = true →
    step s = exec i { s with commands := rest })
  ∧ ∀ (s : State) (cw : CmdWord) i, decode cw = .ok i → step (s.withFetchWord 48 cw.toNat) = exec i s

/-- R90: with no command issued the block is idle and holds its state (notes/assumptions/4.md: that this is a step is
the model's choice). -/
def Obligations.StepIdlesWithoutCommand : Prop :=
  ∀ s, s.commands = [] → step s = .next s

/-- R36, R82: a word that meets one of R36's conditions is answered `(ERR_ILLEGAL, 0)` in every state, and nothing of the
block changes. -/
def Obligations.IllegalWordAnsweredErrIllegal : Prop :=
  ∀ s cw rest, s.commands = cw :: rest → wellFormedWord cw = false →
    step s = .next (answered { s with commands := rest } .errIllegal 0)

/-- R103: in every good state every command word gets exactly one response and one next state. -/
def Obligations.EveryWordGetsOneResponse : Prop :=
  ∀ s cw rest, BlockInv s → s.commands = cw :: rest →
    ∃ t r, step s = .next t ∧ t.commands = rest ∧ t.responses = s.responses ++ [r]

/-- R104: the machine refines the step function of R104 on its four states: over the host's whole list of command words the
responses and the final flags are those of `pureRun`, which uses no table memory and not the machine's decoder. -/
def Obligations.MachineRefinesPureStepFunction : Prop :=
  ∀ s, BlockInv s →
    ∃ t, RunsTo s.commands.length s t ∧ t.commands = []
      ∧ t.responses = s.responses ++ (pureRun (s.built16, s.built32) s.commands).2
      ∧ (t.built16, t.built32) = (pureRun (s.built16, s.built32) s.commands).1

/-! ## Encoding -/

/-- R37: decode of encode is the command, with every operand at every value; encode of decode is the word. -/
def Obligations.DecodeAndEncodeAreInverse : Prop :=
  (∀ i : Instr, i.wellFormed = true → decode (encode i) = .ok i)
  ∧ ∀ cw i, decode cw = .ok i → encode i = cw

/-- R34: a word is a row's command exactly when it matches the row's pattern, and no word matches two. -/
def Obligations.PatternDecidesCommand : Prop :=
  (∀ cw r, r ∈ opcodeTable → (r.hits cw = true ↔ ∃ i, decode cw = .ok i ∧ rowOf i = r))
  ∧ ∀ cw r q, r ∈ opcodeTable → q ∈ opcodeTable → r.hits cw = true → q.hits cw = true → r = q

/-- R34: the number of legal words. -/
def Obligations.LegalWordCount : Prop :=
  Nat.card { cw : CmdWord // wellFormedWord cw = true } = 1 + 2 ^ 24 + 2 ^ 8 + 1 + 2 ^ 40 + 2 ^ 8

/-- R36: the decoder refuses exactly the words that match none of the six patterns, which are exactly those that meet one of
R36's conditions, and a refused word is answered `(ERR_ILLEGAL, 0)` with no state changed. -/
def Obligations.DecoderRefusesExactlyIllegalWords : Prop :=
  (∀ s cw rest why, s.commands = cw :: rest → decode cw = .error why →
    step s = .next (answered { s with commands := rest } .errIllegal 0))
  ∧ (∀ cw, (∃ why, decode cw = .error why) ↔ ∀ r ∈ opcodeTable, r.hits cw = false)
  ∧ ∀ cw, (∃ why, decode cw = .error why) ↔
    (opField cw = 0x0 ∨ opField cw = 0x4 ∨ 0x8 ≤ (opField cw).toNat)
    ∨ rsvField cw ≠ 0
    ∨ ((opField cw = 0x1 ∨ opField cw = 0x5) ∧ cw.extractLsb' 0 40 ≠ 0)
    ∨ ((opField cw = 0x3 ∨ opField cw = 0x7) ∧ cw.extractLsb' 8 32 ≠ 0)
    ∨ (opField cw = 0x2 ∧ cw.extractLsb' 24 16 ≠ 0)

/-- R33: the operation code selects the command: bit 3 is 0, bit 2 the variant, bits 1:0 the function; the all-zero and
the all-one word are illegal. -/
def Obligations.OperationCodeSelectsCommand : Prop :=
  (∀ cw i, decode cw = .ok i →
    (opField cw).getLsbD 3 = false
    ∧ (opField cw).getLsbD 2 = isCrc32 i
    ∧ (opField cw).extractLsb' 0 2
        = (match i with
          | .bld16 => 1 | .upd16 _ _ => 2 | .rdt16 _ => 3
          | .bld32 => 1 | .upd32 _ _ => 2 | .rdt32 _ => 3 : BitVec 2))
  ∧ (∀ cw, opField cw = 0x0 ∨ opField cw = 0x4 ∨ 0x8 ≤ (opField cw).toNat → ∃ why, decode cw = .error why)
  ∧ (∃ why, decode 0x000000000000 = .error why) ∧ (∃ why, decode 0xFFFFFFFFFFFF = .error why)

/-- 30_encoding.md section 8: the worked encodings decode to the commands beside them. -/
def Obligations.WorkedEncodingsDecode : Prop :=
  decode 0x100000000000 = .ok .bld16
  ∧ decode 0x500000000000 = .ok .bld32
  ∧ decode 0x200000D4C132 = .ok (.upd16 0xD4C1 0x32)
  ∧ decode 0x607C23104832 = .ok (.upd32 0x7C231048 0x32)
  ∧ decode 0x300000000001 = .ok (.rdt16 0x01)
  ∧ decode 0x7000000000FF = .ok (.rdt32 0xFF)

/-- R32: the response word's layout: status in bits 33:32, value in bits 31:0; a word with status 3 is no response, and every
other word is the word of exactly the response read from it. -/
def Obligations.ResponseWordLayout : Prop :=
  (∀ r, (responseWord r).extractLsb' 32 2 = statusCode r.status ∧ (responseWord r).extractLsb' 0 32 = r.value
    ∧ readResponseWord (responseWord r) = some r)
  ∧ ∀ rsp : RspWord, (rsp.extractLsb' 32 2 = 3 ∧ readResponseWord rsp = none)
      ∨ ∃ r, readResponseWord rsp = some r ∧ responseWord r = rsp

/-- R38: the written form of a command determines the command. -/
def Obligations.WrittenFormDeterminesCommand : Prop :=
  ∀ i j, written i = written j → i = j

/-! ## The build commands -/

/-- R42: `BLD16` from any state: all 256 entries of T16, BUILT16, one response, and nothing else; on a built table it
changes nothing. -/
def Obligations.Bld16BuildsTable : Prop :=
  encode .bld16 = 0x100000000000
  ∧ (∀ s, ∃ t, exec .bld16 s = .next t
      ∧ (∀ i, t.t16.read i = some (entry16 i)) ∧ t.built16 = true
      ∧ SameHalf32 s t ∧ t.commands = s.commands ∧ t.responses = s.responses ++ [⟨.ok, 0⟩]
      ∧ (HalfInv s.t16 s.built16 entry16 → s.built16 = true → SameBlock s t))
  ∧ entry16 0x00 = 0x0000 ∧ entry16 0x01 = 0xC0C1 ∧ entry16 0x80 = 0xA001 ∧ entry16 0xFF = 0x4040

/-- R43: `BLD32` from any state: all 256 entries of T32, BUILT32, one response, and nothing else; on a built table it
changes nothing. -/
def Obligations.Bld32BuildsTable : Prop :=
  encode .bld32 = 0x500000000000
  ∧ (∀ s, ∃ t, exec .bld32 s = .next t
      ∧ (∀ i, t.t32.read i = some (entry32 i)) ∧ t.built32 = true
      ∧ SameHalf16 s t ∧ t.commands = s.commands ∧ t.responses = s.responses ++ [⟨.ok, 0⟩]
      ∧ (HalfInv s.t32 s.built32 entry32 → s.built32 = true → SameBlock s t))
  ∧ entry32 0x00 = 0x00000000 ∧ entry32 0x01 = 0x77073096 ∧ entry32 0x80 = 0xEDB88320 ∧ entry32 0xFF = 0x2D02EF8D

/-- R45: two builds, from whatever canonical states, give bit-identical tables, which hold the defined entries; and a rebuild
leaves the block as it is. -/
def Obligations.BuildsAreIdenticalAndIdempotent : Prop :=
  (∀ s u, Canonical s → Canonical u → ∃ t v, exec .bld16 s = .next t ∧ exec .bld16 u = .next v ∧ v.t16 = t.t16
      ∧ t.built16 = true ∧ v.built16 = true ∧ ∀ i, t.t16.read i = some (entry16 i))
  ∧ (∀ s u, Canonical s → Canonical u → ∃ t v, exec .bld32 s = .next t ∧ exec .bld32 u = .next v ∧ v.t32 = t.t32
      ∧ t.built32 = true ∧ v.built32 = true ∧ ∀ i, t.t32.read i = some (entry32 i))
  ∧ (∀ s, Canonical s → ∃ t u, exec .bld16 s = .next t ∧ exec .bld16 t = .next u ∧ SameBlock t u)
  ∧ ∀ s, Canonical s → ∃ t u, exec .bld32 s = .next t ∧ exec .bld32 t = .next u ∧ SameBlock t u

/-- 40_table_builder.md section 5: the procedure with a shifting copy and the procedure seeded with the byte compute the
same entry, for every polynomial of every width from 8 bits on. -/
def Obligations.CopyAndSeededProceduresAgree : Prop :=
  ∀ (w : Nat), 8 ≤ w → ∀ (poly : BitVec w) (i : Byte), copyEntry poly i = seededEntry poly i

/-- 40_table_builder.md section 6: the tables are linear over XOR, are 0 at index 0 and the polynomial at
index 0x80. -/
def Obligations.TablesAreLinear : Prop :=
  (∀ a b, entry16 (a ^^^ b) = entry16 a ^^^ entry16 b) ∧ (∀ a b, entry32 (a ^^^ b) = entry32 a ^^^ entry32 b)
  ∧ entry16 0 = 0 ∧ entry32 0 = 0 ∧ entry16 0x80 = Config.poly16 ∧ entry32 0x80 = Config.poly32

/-- R40, R41: the working values of the worked examples, iteration by iteration. -/
def Obligations.WorkedEntryTraces : Prop :=
  ([1, 2, 3, 4, 5, 6, 7, 8].map fun k => (iterate (copyShift Config.poly16) k (0, 0x01)).1)
    = [0xA001, 0xF001, 0xD801, 0xCC01, 0xC601, 0xC301, 0xC181, 0xC0C1]
  ∧ ([1, 2, 3, 4, 5, 6, 7, 8].map fun k => iterate (crcShift Config.poly32) k 0x00000001)
    = [0xEDB88320, 0x76DC4190, 0x3B6E20C8, 0x1DB71064, 0x0EDB8832, 0x076DC419, 0xEE0E612C, 0x77073096]

/-! ## The update commands -/

/-- R50, R51: what the update functions compute: the byte meets only the low 8 bits of the running value, the old upper
bytes move down, and the top byte of the result comes from the entry alone. -/
def Obligations.UpdateFunctionsByBytes : Prop :=
  (∀ T crc b, upd16 T crc b = (crc >>> 8) ^^^ T (((crc ^^^ b.setWidth 16) &&& 0x00FF).setWidth 8)
    ∧ ((crc ^^^ b.setWidth 16) &&& 0x00FF).setWidth 8 = crc.setWidth 8 ^^^ b
    ∧ (upd16 T crc b).extractLsb' 8 8 = (T (crc.setWidth 8 ^^^ b)).extractLsb' 8 8
    ∧ (upd16 T crc b).extractLsb' 0 8
        = crc.extractLsb' 8 8 ^^^ (T (crc.setWidth 8 ^^^ b)).extractLsb' 0 8)
  ∧ (∀ T crc b, upd32 T crc b = (crc >>> 8) ^^^ T (((crc ^^^ b.setWidth 32) &&& 0x000000FF).setWidth 8)
    ∧ ((crc ^^^ b.setWidth 32) &&& 0x000000FF).setWidth 8 = crc.setWidth 8 ^^^ b
    ∧ (upd32 T crc b).extractLsb' 24 8 = (T (crc.setWidth 8 ^^^ b)).extractLsb' 24 8
    ∧ (upd32 T crc b).extractLsb' 0 24
        = crc.extractLsb' 8 24 ^^^ (T (crc.setWidth 8 ^^^ b)).extractLsb' 0 24)
  ∧ entry16 0xF3 = 0x4540 ∧ upd16 entry16 0xD4C1 0x32 = 0x4594
  ∧ entry32 0xCE = 0x7CDCEFB7 ∧ upd32 entry32 0xFFFFFFFF 0x31 = 0x7C231048

/-- R52: `UPD16`: the encoding and its pattern; the fault; the answer from the one entry read, in any state; the answer from a
table that holds its defined entries; the same answer when repeated; the corner cases. The next state is the state with that one response more. -/
def Obligations.Upd16AnswersNextRunningValue : Prop :=
  (∀ (crc : BitVec 16) (b : Byte),
    encode (.upd16 crc b) = (0x2 : BitVec 4) ++ (0x0 : BitVec 4) ++ (0x0000 : BitVec 16) ++ crc ++ b)
  ∧ (∀ cw : CmdWord, cw &&& 0xFFFFFF000000 = 0x200000000000 ↔ ∃ crc b, decode cw = .ok (.upd16 crc b))
  ∧ (∀ s crc b, s.built16 = false → exec (.upd16 crc b) s = .next (answered s .errNotBuilt 0))
  ∧ (∀ s crc b e, s.built16 = true → s.t16.read (crc.setWidth 8 ^^^ b) = some e →
      exec (.upd16 crc b) s = .next (answered s .ok (((crc >>> 8) ^^^ e).setWidth 32)))
  ∧ (∀ s crc b, HalfInv s.t16 s.built16 entry16 → s.built16 = true →
      exec (.upd16 crc b) s = .next (answered s .ok ((upd16 entry16 crc b).setWidth 32)))
  ∧ (∀ s crc b t, exec (.upd16 crc b) s = .next t →
      ∃ r, t.responses = s.responses ++ [r] ∧ exec (.upd16 crc b) t = .next (answered t r.status r.value))
  ∧ (∀ crc : BitVec 16, upd16 entry16 crc (crc.setWidth 8) = crc >>> 8)
  ∧ upd16 entry16 0x0000 0x00 = 0x0000 ∧ upd16 entry16 0xFFFF 0x00 = 0x40BF ∧ upd16 entry16 0x0000 0x31 = 0xD4C1

/-- R53: `UPD32`: the encoding and its pattern; the fault; the answer from the one entry read, in any state; the answer from a table
that holds its defined entries; the corner cases. The next state is the state with that one response more. -/
def Obligations.Upd32AnswersNextRunningValue : Prop :=
  (∀ (crc : BitVec 32) (b : Byte),
    encode (.upd32 crc b) = (0x6 : BitVec 4) ++ (0x0 : BitVec 4) ++ crc ++ b)
  ∧ (∀ cw : CmdWord, cw &&& 0xFF0000000000 = 0x600000000000 ↔ ∃ crc b, decode cw = .ok (.upd32 crc b))
  ∧ (∀ s crc b, s.built32 = false → exec (.upd32 crc b) s = .next (answered s .errNotBuilt 0))
  ∧ (∀ s crc b e, s.built32 = true → s.t32.read (crc.setWidth 8 ^^^ b) = some e →
      exec (.upd32 crc b) s = .next (answered s .ok ((crc >>> 8) ^^^ e)))
  ∧ (∀ s crc b, HalfInv s.t32 s.built32 entry32 → s.built32 = true →
      exec (.upd32 crc b) s = .next (answered s .ok (upd32 entry32 crc b)))
  ∧ (∀ crc : BitVec 32, upd32 entry32 crc (crc.setWidth 8) = crc >>> 8)
  ∧ upd32 entry32 0x00000000 0x00 = 0x00000000 ∧ upd32 entry32 0xFFFFFFFF 0xFF = 0x00FFFFFF
  ∧ upd32 entry32 0xFFFFFFFF 0x00 = 0x2DFD1072 ∧ upd32 entry32 0xFFFFFFFF 0x31 = 0x7C231048

/-- 41_updater.md section 5: an update depends on the byte only through its XOR with the running value's low byte. -/
def Obligations.UpdateDependsOnLowByteXor : Prop :=
  (∀ T crc b d, upd16 T (crc ^^^ d.setWidth 16) (b ^^^ d) = upd16 T crc b)
  ∧ ∀ T crc b d, upd32 T (crc ^^^ d.setWidth 32) (b ^^^ d) = upd32 T crc b

/-- 41_updater.md section 5: over any byte sequence, from any running value, the table-driven updates equal the bit-serial
division: the byte XORed in, then eight shifts by 1. -/
def Obligations.TableDrivenEqualsBitSerial : Prop :=
  (∀ x bs, foldBytes entry16 x bs = bs.foldl (bitSerial Config.poly16) x)
  ∧ ∀ x bs, foldBytes entry32 x bs = bs.foldl (bitSerial Config.poly32) x

/-! ## The read commands -/

/-- R60: `RDT16`: the encoding and its pattern; the fault; the entry, in any state; the defined entry where the table holds
it; the same answer when repeated. -/
def Obligations.Rdt16AnswersEntry : Prop :=
  (∀ idx : Byte, encode (.rdt16 idx) = (0x3 : BitVec 4) ++ (0x0 : BitVec 4) ++ (0x00000000 : BitVec 32) ++ idx)
  ∧ (∀ cw : CmdWord, cw &&& 0xFFFFFFFFFF00 = 0x300000000000 ↔ ∃ idx, decode cw = .ok (.rdt16 idx))
  ∧ (∀ s idx, s.built16 = false → exec (.rdt16 idx) s = .next (answered s .errNotBuilt 0))
  ∧ (∀ s idx e, s.built16 = true → s.t16.read idx = some e →
      exec (.rdt16 idx) s = .next (answered s .ok (e.setWidth 32)))
  ∧ (∀ s idx, HalfInv s.t16 s.built16 entry16 → s.built16 = true →
      exec (.rdt16 idx) s = .next (answered s .ok ((entry16 idx).setWidth 32)))
  ∧ (∀ s idx t, exec (.rdt16 idx) s = .next t →
      ∃ r, t.responses = s.responses ++ [r] ∧ exec (.rdt16 idx) t = .next (answered t r.status r.value))
  ∧ entry16 0x01 = 0xC0C1

/-- R61: `RDT32`: the encoding and its pattern; the fault; the entry, in any state; the defined entry where the table holds
it; the same answer when repeated. -/
def Obligations.Rdt32AnswersEntry : Prop :=
  (∀ idx : Byte, encode (.rdt32 idx) = (0x7 : BitVec 4) ++ (0x0 : BitVec 4) ++ (0x00000000 : BitVec 32) ++ idx)
  ∧ (∀ cw : CmdWord, cw &&& 0xFFFFFFFFFF00 = 0x700000000000 ↔ ∃ idx, decode cw = .ok (.rdt32 idx))
  ∧ (∀ s idx, s.built32 = false → exec (.rdt32 idx) s = .next (answered s .errNotBuilt 0))
  ∧ (∀ s idx e, s.built32 = true → s.t32.read idx = some e →
      exec (.rdt32 idx) s = .next (answered s .ok e))
  ∧ (∀ s idx, HalfInv s.t32 s.built32 entry32 → s.built32 = true →
      exec (.rdt32 idx) s = .next (answered s .ok (entry32 idx)))
  ∧ (∀ s idx t, exec (.rdt32 idx) s = .next t →
      ∃ r, t.responses = s.responses ++ [r] ∧ exec (.rdt32 idx) t = .next (answered t r.status r.value))
  ∧ entry32 0x01 = 0x77073096

/-- R62: a read returns the entry that an update reads at the same index; an update from 0 answers as the read does,
in every state. -/
def Obligations.ReadAgreesWithUpdate : Prop :=
  (∀ s crc b e, s.built16 = true →
      exec (.rdt16 (crc.setWidth 8 ^^^ b)) s = .next (answered s .ok (e.setWidth 32)) →
      exec (.upd16 crc b) s = .next (answered s .ok (((crc >>> 8) ^^^ e).setWidth 32)))
  ∧ (∀ s crc b e, s.built32 = true →
      exec (.rdt32 (crc.setWidth 8 ^^^ b)) s = .next (answered s .ok e) →
      exec (.upd32 crc b) s = .next (answered s .ok ((crc >>> 8) ^^^ e)))
  ∧ (∀ s idx, exec (.upd16 0 idx) s = exec (.rdt16 idx) s)
  ∧ ∀ s idx, exec (.upd32 0 idx) s = exec (.rdt32 idx) s

/-! ## Faults, frames, isolation -/

/-- R83: `UPDn` and `RDTn` with the flag 0 answer `(ERR_NOT_BUILT, 0)`, whatever the table holds, and nothing else
changes. -/
def Obligations.UnbuiltTableFaults : Prop :=
  ∀ i s, tableReady i s = false → exec i s = .next (answered s .errNotBuilt 0)

/-- R80: in every good state a command whose table is built answers `OK`. -/
def Obligations.LegalCommandWithTableSucceeds : Prop :=
  ∀ i s, BlockInv s → tableReady i s = true →
    ∃ t v, exec i s = .next t ∧ t.responses = s.responses ++ [⟨.ok, v⟩]

/-- R54, R21: the frame of `UPD16`, `RDT16`, `UPD32`, `RDT32`: they write no table entry and no flag; only one response
is added. -/
def Obligations.UpdatesAndReadsWriteNoState : Prop :=
  ∀ i s t, isBuild i = false → exec i s = .next t →
    SameBlock s t ∧ (∀ j, t.t16.read j = s.t16.read j) ∧ (∀ j, t.t32.read j = s.t32.read j)
    ∧ t.commands = s.commands ∧ ∃ r, t.responses = s.responses ++ [r]

/-- R86, R87: after a step whose response is a fault the block and the commands to come are as before, the value is 0, and
the next step does exactly what it would have done had the faulting command never been issued. -/
def Obligations.FaultLeavesNoTrace : Prop :=
  ∀ s cw rest t, s.commands = cw :: rest → step s = .next t → lastStatus t ≠ some .ok →
    ∃ st, st ≠ .ok ∧ t = answered { s with commands := rest } st 0
      ∧ step t = mapNext (fun u => { u with responses := t.responses ++ u.responses.drop s.responses.length })
          (step { s with commands := rest })

/-- R87: after a build, from any state, every command of that variant succeeds. -/
def Obligations.BuildRecoversFromNotBuilt : Prop :=
  (∀ i s, isCrc16 i = true → ∃ t u v, exec .bld16 s = .next t ∧ exec i t = .next u
      ∧ u.responses = t.responses ++ [⟨.ok, v⟩])
  ∧ ∀ i s, isCrc32 i = true → ∃ t u v, exec .bld32 s = .next t ∧ exec i t = .next u
      ∧ u.responses = t.responses ++ [⟨.ok, v⟩]

/-- R28: a command of one variant neither reads nor writes the other's half: with any other half in its place the command
does the same and leaves that half as it is. -/
def Obligations.VariantsShareNoState : Prop :=
  (∀ i s m b, isCrc16 i = true →
    exec i { s with t32 := m, built32 := b } = mapNext (fun t => { t with t32 := m, built32 := b }) (exec i s))
  ∧ ∀ i s m b, isCrc32 i = true →
    exec i { s with t16 := m, built16 := b } = mapNext (fun t => { t with t16 := m, built16 := b }) (exec i s)

/-- R28: in any interleaving of the two variants' commands, the responses to the commands of one variant are those it gets
with the other's commands taken out. -/
def Obligations.InterleavingChangesNoResponse : Prop :=
  ∀ (s : State) (is : List Instr), BlockInv s →
    ∃ t u v, RunsTo is.length (facing s (is.map encode)) t
      ∧ RunsTo (is.filter isCrc16).length (facing s ((is.filter isCrc16).map encode)) u
      ∧ RunsTo (is.filter isCrc32).length (facing s ((is.filter isCrc32).map encode)) v
      ∧ u.responses = ((is.zip t.responses).filter fun p => isCrc16 p.1).map Prod.snd
      ∧ v.responses = ((is.zip t.responses).filter fun p => isCrc32 p.1).map Prod.snd
      ∧ SameHalf16 t u ∧ SameHalf32 t v

/-- R96, R97: over any sequence of commands from a good state, every response is `OK` exactly when each update and read
comes after a build of its table; every response that is not `OK` is `(ERR_NOT_BUILT, 0)`. -/
def Obligations.BootDutyIsTheOnlyOrdering : Prop :=
  ∀ (s : State) (is : List Instr), BlockInv s →
    ∃ t, RunsTo is.length (facing s (is.map encode)) t ∧ t.responses.length = is.length
      ∧ ((∀ r ∈ t.responses, r.status = .ok) ↔ bootDuty s.built16 s.built32 is = true)
      ∧ ∀ r ∈ t.responses, r.status = .ok ∨ r = ⟨.errNotBuilt, 0⟩

/-! ## The host's sessions -/

/-- R96: building the tables of the active variants succeeds from any good state, leaves them built, leaves the other half
alone and the host's list of commands as it was. -/
def Obligations.BootBuildsActiveTables : Prop :=
  ∀ v s, BlockInv s →
    ∃ t, buildTables v s = some t ∧ BlockInv t ∧ t.commands = s.commands
      ∧ t.built16 = (v.crc16 || s.built16) ∧ t.built32 = (v.crc32 || s.built32)
      ∧ (v.crc16 = false → SameHalf16 s t) ∧ (v.crc32 = false → SameHalf32 s t)

/-- R68: the checksums by the fold equations; a session over any byte sequence, with the tables of its variants built, yields exactly `CRC16(B)` and `CRC32(B)`, and
leaves the block as it found it; the worked example. -/
def Obligations.SessionYieldsChecksums : Prop :=
  (∀ x b bs, foldBytes entry16 x [] = x ∧ foldBytes entry16 x (b :: bs) = foldBytes entry16 (upd16 entry16 x b) bs)
  ∧ (∀ x b bs, foldBytes entry32 x [] = x ∧ foldBytes entry32 x (b :: bs) = foldBytes entry32 (upd32 entry32 x b) bs)
  ∧ (∀ bs, crc16 bs = foldBytes entry16 0x0000 bs ∧ crc32 bs = ~~~(foldBytes entry32 0xFFFFFFFF bs))
  ∧ (∀ v bs s, BlockInv s → (v.crc16 = true → s.built16 = true) → (v.crc32 = true → s.built32 = true) →
    ∃ t, session v bs s
        = some (⟨if v.crc16 then some (crc16 bs) else none, if v.crc32 then some (crc32 bs) else none⟩, t)
      ∧ SameBlock s t ∧ t.commands = s.commands)
  ∧ crc16 [0x31, 0x32, 0x33, 0x34, 0x35, 0x36, 0x37, 0x38, 0x39] = 0xBB3D
  ∧ crc32 [0x31, 0x32, 0x33, 0x34, 0x35, 0x36, 0x37, 0x38, 0x39] = 0xCBF43926

/-- R69: the running value does not depend on how the bytes are cut into pieces, for the functions and for a host that
streams through the block. -/
def Obligations.ChunkingDoesNotMatter : Prop :=
  (∀ (w : Nat) (T : Byte → BitVec w) x bs cs, foldBytes T x (bs ++ cs) = foldBytes T (foldBytes T x bs) cs)
  ∧ ∀ bs cs r s, streamBytes (bs ++ cs) r s = (streamBytes bs r s).bind fun p => streamBytes cs p.1 p.2

/-- R70: a session with both variants active yields what the two sessions with one active yield; and within a byte the order of
the two updates changes neither response. -/
def Obligations.VariantsIndependentInSession : Prop :=
  (∀ bs s, BlockInv s → s.built16 = true → s.built32 = true →
    ∃ t u v r16 r32, session ⟨true, false⟩ bs s = some (⟨some r16, none⟩, t)
      ∧ session ⟨false, true⟩ bs s = some (⟨none, some r32⟩, u)
      ∧ session ⟨true, true⟩ bs s = some (⟨some r16, some r32⟩, v))
  ∧ ∀ s x y b, BlockInv s → s.built16 = true → s.built32 = true →
    ∃ p q t u t' u', callOk (.upd16 x b) s = some (p, t) ∧ callOk (.upd32 y b) t = some (q, u)
      ∧ callOk (.upd32 y b) s = some (q, t') ∧ callOk (.upd16 x b) t' = some (p, u')

/-- R73: a session over no bytes issues no command and yields 0 for both variants. -/
def Obligations.EmptySessionYieldsZero : Prop :=
  crc16 [] = 0x0000 ∧ crc32 [] = 0x00000000
  ∧ ∀ v s, session v [] s
      = some (⟨if v.crc16 then some 0x0000 else none, if v.crc32 then some 0x00000000 else none⟩, s)

/-- R74: both checksums are the one generic algorithm at the two parameter records, whose seeded CRC16 entries are
`entry16`. -/
def Obligations.GenericFormCoversBothVariants : Prop :=
  Config.crc16Params = ⟨16, 0xA001, 0x0000, 0x0000⟩
  ∧ Config.crc32Params = ⟨32, 0xEDB88320, 0xFFFFFFFF, 0xFFFFFFFF⟩
  ∧ (∀ i, seededEntry Config.poly16 i = entry16 i)
  ∧ (∀ bs, crc16 bs = crcOf Config.crc16Params bs) ∧ ∀ bs, crc32 bs = crcOf Config.crc32Params bs

/-- 41_updater.md section 5: a CRC16 session does not see leading zero bytes. -/
def Obligations.Crc16IgnoresLeadingZeros : Prop :=
  ∀ k bs, crc16 (List.replicate k 0 ++ bs) = crc16 bs
end

