-- ==== Sys2Proof/Laws/Encoding.lean ====
section
/-! SUPPORT. The command word bit by bit and field by field (30_encoding.md R31, R34, R35): what each field of an encoded
word is, that the fields make up the word, and what matching a row means for the fields. -/

namespace Sys2Proof.Laws

theorem getLsbD_commandWord (op : BitVec 4) (crc : BitVec 32) (byte : Byte) (k : Nat) :
    (commandWord op crc byte).getLsbD k
      = if k < 8 then byte.getLsbD k else if k < 40 then crc.getLsbD (k - 8)
        else if k < 44 then false else op.getLsbD (k - 44) := by
  change (op ++ (0 : BitVec 4) ++ crc ++ byte).getLsbD k = _
  simp only [BitVec.getLsbD_append]
  by_cases h8 : k < 8
  · simp [h8]
  by_cases h40 : k < 40
  · simp [h8, h40, show k - 8 < 32 by omega]
  by_cases h44 : k < 44
  · simp [h8, h40, h44, show ¬k - 8 < 32 by omega, show k - 8 - 32 < 4 by omega]
  · simp [h8, h40, h44, show ¬k - 8 < 32 by omega, show ¬k - 8 - 32 < 4 by omega, show k - 8 - 32 - 4 = k - 44 by omega]

@[simp] theorem opField_commandWord (op : BitVec 4) (crc : BitVec 32) (byte : Byte) :
    opField (commandWord op crc byte) = op := by
  ext k hk
  simp [opField, getLsbD_commandWord, BitVec.getElem_extractLsb', hk, show ¬44 + k < 8 by omega,
    show ¬44 + k < 40 by omega]

@[simp] theorem rsvField_commandWord (op : BitVec 4) (crc : BitVec 32) (byte : Byte) :
    rsvField (commandWord op crc byte) = 0 := by
  ext k hk
  simp [rsvField, getLsbD_commandWord, BitVec.getElem_extractLsb', show ¬40 + k < 8 by omega,
    show 40 + k < 44 by omega]

@[simp] theorem crcField_commandWord (op : BitVec 4) (crc : BitVec 32) (byte : Byte) :
    crcField (commandWord op crc byte) = crc := by
  ext k hk
  simp [crcField, getLsbD_commandWord, BitVec.getElem_extractLsb', hk, show 8 + k < 40 by omega]

@[simp] theorem byteField_commandWord (op : BitVec 4) (crc : BitVec 32) (byte : Byte) :
    byteField (commandWord op crc byte) = byte := by
  ext k hk
  simp [byteField, getLsbD_commandWord, BitVec.getElem_extractLsb', hk]

/-- A word with the reserved field 0 is the word of its fields. -/
theorem commandWord_fields {cw : CmdWord} (h : rsvField cw = 0) :
    commandWord (opField cw) (crcField cw) (byteField cw) = cw := by
  apply BitVec.eq_of_getLsbD_eq
  intro k hk
  have hr : ∀ j, j < 4 → cw.getLsbD (40 + j) = false := fun j hj => by
    have := congrArg (fun v => BitVec.getLsbD v j) h
    simpa [rsvField, hj] using this
  rw [getLsbD_commandWord]
  split
  · simp [byteField, *]
  · split
    · simp [crcField, show k - 8 < 32 by omega, show 8 + (k - 8) = k by omega]
    · split
      · simpa [show 40 + (k - 40) = k by omega] using (hr (k - 40) (by omega)).symm
      · simp [opField, show k - 44 < 4 by omega, show 44 + (k - 44) = k by omega]

/-- Two words with the same reserved field are equal when their fields are. -/
theorem cmdWord_ext {a b : CmdWord} (ho : opField a = opField b) (hr : rsvField a = rsvField b)
    (hc : crcField a = crcField b) (hb : byteField a = byteField b) : a = b := by
  apply BitVec.eq_of_getLsbD_eq
  intro k hk
  by_cases h8 : k < 8
  · simpa [byteField, h8] using congrArg (fun v => BitVec.getLsbD v k) hb
  by_cases h40 : k < 40
  · simpa [crcField, show k - 8 < 32 by omega, show 8 + (k - 8) = k by omega]
      using congrArg (fun v => BitVec.getLsbD v (k - 8)) hc
  by_cases h44 : k < 44
  · simpa [rsvField, show k - 40 < 4 by omega, show 40 + (k - 40) = k by omega]
      using congrArg (fun v => BitVec.getLsbD v (k - 40)) hr
  · simpa [opField, show k - 44 < 4 by omega, show 44 + (k - 44) = k by omega]
      using congrArg (fun v => BitVec.getLsbD v (k - 44)) ho

/-- Masking a word masks its fields. -/
theorem opField_and (a b : CmdWord) : opField (a &&& b) = opField a &&& opField b := by
  simp [opField, BitVec.extractLsb'_and]

theorem rsvField_and (a b : CmdWord) : rsvField (a &&& b) = rsvField a &&& rsvField b := by
  simp [rsvField, BitVec.extractLsb'_and]

theorem crcField_and (a b : CmdWord) : crcField (a &&& b) = crcField a &&& crcField b := by
  simp [crcField, BitVec.extractLsb'_and]

theorem byteField_and (a b : CmdWord) : byteField (a &&& b) = byteField a &&& byteField b := by
  simp [byteField, BitVec.extractLsb'_and]

/-- A word matches a row exactly when each field matches it. -/
theorem hits_iff_fields (r : Row) (cw : CmdWord) :
    r.hits cw = true ↔
      opField cw &&& opField r.mask = opField r.bits ∧ rsvField cw &&& rsvField r.mask = rsvField r.bits
        ∧ crcField cw &&& crcField r.mask = crcField r.bits
        ∧ byteField cw &&& byteField r.mask = byteField r.bits := by
  rw [Row.hits, beq_iff_eq, ← opField_and, ← rsvField_and, ← crcField_and, ← byteField_and]
  exact ⟨fun h => by simp [h], fun ⟨ho, hr, hc, hb⟩ => cmdWord_ext ho hr hc hb⟩

/-- The crc field is its two halves. -/
theorem crcField_halves (cw : CmdWord) : crcField cw = crcHighField cw ++ crcLowField cw := by
  apply BitVec.eq_of_getLsbD_eq
  intro k hk
  change _ = (crcHighField cw ++ crcLowField cw).getLsbD k
  rw [BitVec.getLsbD_append]
  split
  · simp [crcField, crcLowField, *]
  · simp [crcField, crcHighField, show k - 16 < 16 by omega, show 24 + (k - 16) = 8 + k by omega, show k < 32 by omega]

end Sys2Proof.Laws
end

