-- ==== Sys2Proof/Laws/Memory.lean ====
section
/-! SUPPORT. The table memories (Machine/Ops.lean): a read after a write, that every operation keeps the canonical
form, and that two canonical memories with the same reads are the same list. -/

namespace Sys2Proof.Laws.Memory

open Sys2Proof.Machine

variable {w : Nat}

@[simp] theorem read_nil (i : Byte) : Memory.read ([] : Memory w) i = none := rfl

theorem read_write_same (m : Memory w) (i : Byte) (v : BitVec w) : (m.write i v).read i = some v := by
  induction m with
  | nil => simp [Memory.write, Memory.read]
  | cons c m ih =>
    obtain ⟨k, u⟩ := c
    unfold Memory.write
    split
    · simp [Memory.read]
    · split
      · simp [Memory.read, *]
      · simp [Memory.read, *]

theorem read_write_other (m : Memory w) {i j : Byte} (v : BitVec w) (h : j ≠ i) :
    (m.write i v).read j = m.read j := by
  have hn : i.toNat ≠ j.toNat := fun e => h (BitVec.eq_of_toNat_eq e.symm)
  induction m with
  | nil => simp [Memory.write, Memory.read, hn]
  | cons c m ih =>
    obtain ⟨k, u⟩ := c
    unfold Memory.write
    split
    · simp [Memory.read, hn]
    · split
      · rename_i hk
        simp [Memory.read, hk, hn]
      · simp [Memory.read, ih]

/-- Every index of a written memory is an old one or the one written. -/
theorem key_of_mem_write {m : Memory w} {i : Byte} {v : BitVec w} {c : Nat × BitVec w} (h : c ∈ m.write i v) :
    c.1 = i.toNat ∨ c ∈ m := by
  induction m with
  | nil => simp only [Memory.write, List.mem_singleton] at h; simp [h]
  | cons d m ih =>
    obtain ⟨k, u⟩ := d
    unfold Memory.write at h
    split at h
    · rcases List.mem_cons.mp h with rfl | h
      · exact .inl rfl
      · exact .inr h
    · split at h
      · rename_i hk
        rcases List.mem_cons.mp h with rfl | h
        · exact .inl hk
        · exact .inr (List.mem_cons_of_mem _ h)
      · rcases List.mem_cons.mp h with rfl | h
        · exact .inr (List.mem_cons_self ..)
        · exact (ih h).imp id (List.mem_cons_of_mem _)

theorem wf_nil : Memory.wf ([] : Memory w) := ⟨.nil, nofun⟩

theorem wf_cons {k : Nat} {u : BitVec w} {m : Memory w} :
    Memory.wf ((k, u) :: m) ↔ (k < Config.nEntries ∧ ∀ c ∈ m, k < c.1) ∧ m.wf := by
  simp only [Memory.wf, List.pairwise_cons, List.mem_cons, forall_eq_or_imp]
  tauto

/-- A write keeps the canonical form. -/
theorem write_wf {m : Memory w} (h : m.wf) (i : Byte) (v : BitVec w) : (m.write i v).wf := by
  have hi : i.toNat < Config.nEntries := i.isLt
  induction m with
  | nil => exact wf_cons.mpr ⟨⟨hi, nofun⟩, wf_nil⟩
  | cons d m ih =>
    obtain ⟨k, u⟩ := d
    obtain ⟨⟨hk, hlt⟩, hm⟩ := wf_cons.mp h
    unfold Memory.write
    split
    · rename_i hik
      refine wf_cons.mpr ⟨⟨hi, fun c hc => ?_⟩, h⟩
      rcases List.mem_cons.mp hc with rfl | hc
      · exact hik
      · exact hik.trans (hlt c hc)
    · split
      · exact wf_cons.mpr ⟨⟨hk, hlt⟩, hm⟩
      · refine wf_cons.mpr ⟨⟨hk, fun c hc => ?_⟩, ih hm⟩
        rcases key_of_mem_write hc with e | hc
        · omega
        · exact hlt c hc

/-- Writing a list of indexes: the canonical form is kept. -/
theorem foldl_write_wf (f : Byte → BitVec w) (l : List Nat) {m : Memory w} (h : m.wf) :
    (l.foldl (fun t i => t.write (BitVec.ofNat 8 i) (f (BitVec.ofNat 8 i))) m).wf := by
  induction l generalizing m with
  | nil => exact h
  | cons a l ih => exact ih (write_wf h _ _)

/-- Writing a list of indexes: an index written reads the function's value, any other reads as before. -/
theorem read_foldl_write (f : Byte → BitVec w) (l : List Nat) (m : Memory w) (j : Byte) :
    Memory.read (l.foldl (fun t i => t.write (BitVec.ofNat 8 i) (f (BitVec.ofNat 8 i))) m) j
      = if ∃ i ∈ l, BitVec.ofNat 8 i = j then some (f j) else m.read j := by
  induction l generalizing m with
  | nil => simp
  | cons a l ih =>
    rw [List.foldl_cons, ih]
    by_cases hl : ∃ i ∈ l, BitVec.ofNat 8 i = j
    · obtain ⟨i, hi, e⟩ := hl
      rw [if_pos ⟨i, hi, e⟩, if_pos ⟨i, List.mem_cons_of_mem _ hi, e⟩]
    · rw [if_neg hl]
      by_cases ha : BitVec.ofNat 8 a = j
      · rw [if_pos ⟨a, List.mem_cons_self .., ha⟩, ← ha, read_write_same]
      · rw [read_write_other _ _ (fun e => ha e.symm), if_neg]
        rintro ⟨i, hi, e⟩
        rcases List.mem_cons.mp hi with rfl | hi
        · exact ha e
        · exact hl ⟨i, hi, e⟩

/-- A fill is the ascending writes of all 256 indexes (`delta`, since a fill is irreducible). -/
theorem writeAll_eq_foldl (f : Byte → BitVec w) (m : Memory w) :
    m.writeAll f
      = (List.range Config.nEntries).foldl (fun t i => t.write (BitVec.ofNat 8 i) (f (BitVec.ofNat 8 i))) m := by
  delta Memory.writeAll
  exact Eq.refl _

/-- After a fill every entry holds its value, whatever was there before. -/
@[simp] theorem read_writeAll (f : Byte → BitVec w) (m : Memory w) (j : Byte) :
    (m.writeAll f).read j = some (f j) := by
  rw [writeAll_eq_foldl, read_foldl_write, if_pos]
  have hj : j.toNat < Config.nEntries := j.isLt
  exact ⟨j.toNat, List.mem_range.mpr hj, BitVec.ofNat_toNat .. |>.trans (BitVec.setWidth_eq j)⟩

/-- A fill keeps the canonical form. -/
theorem writeAll_wf (f : Byte → BitVec w) {m : Memory w} (h : m.wf) : (m.writeAll f).wf := by
  rw [writeAll_eq_foldl]
  exact foldl_write_wf f _ h

/-- In a canonical memory nothing below every listed index holds a value. -/
theorem read_eq_none {m : Memory w} {i : Byte} (h : ∀ c ∈ m, i.toNat < c.1) : m.read i = none := by
  induction m with
  | nil => rfl
  | cons d m ih =>
    obtain ⟨k, u⟩ := d
    have hk : i.toNat < k := h _ (List.mem_cons_self ..)
    rw [Memory.read, if_neg (by omega)]
    exact ih fun c hc => h c (List.mem_cons_of_mem _ hc)

/-- Equal memories are equal data: two canonical memories with the same reads are the same list. -/
theorem ext_of_wf {m n : Memory w} (hm : m.wf) (hn : n.wf) (h : ∀ i, m.read i = n.read i) : m = n := by
  induction m generalizing n with
  | nil =>
    cases n with
    | nil => rfl
    | cons d n =>
      obtain ⟨k, u⟩ := d
      have hk := (wf_cons.mp hn).1.1
      have hk' : k % 256 = k := Nat.mod_eq_of_lt hk
      have e := h (BitVec.ofNat 8 k)
      simp [Memory.read, hk'] at e
  | cons c m ih =>
    obtain ⟨k, u⟩ := c
    obtain ⟨⟨hk, hlt⟩, hm'⟩ := wf_cons.mp hm
    have hk' : k % 256 = k := Nat.mod_eq_of_lt hk
    cases n with
    | nil =>
      have e := h (BitVec.ofNat 8 k)
      simp [Memory.read, hk'] at e
    | cons d n =>
      obtain ⟨k2, u2⟩ := d
      obtain ⟨⟨hk2, hlt2⟩, hn'⟩ := wf_cons.mp hn
      have hk2' : k2 % 256 = k2 := Nat.mod_eq_of_lt hk2
      have key : k = k2 := by
        rcases Nat.lt_trichotomy k k2 with hl | he | hl
        · have e := h (BitVec.ofNat 8 k)
          rw [Memory.read, Memory.read, if_pos (by simp [hk']), if_neg (by simp [hk']; omega),
            read_eq_none (fun c hc => by have := hlt2 c hc; simp [hk']; omega)] at e
          cases e
        · exact he
        · have e := h (BitVec.ofNat 8 k2)
          rw [Memory.read, Memory.read, if_neg (by simp [hk2']; omega), if_pos (by simp [hk2']),
            read_eq_none (fun c hc => by have := hlt c hc; simp [hk2']; omega)] at e
          cases e
      subst key
      have hu : u = u2 := by
        have e := h (BitVec.ofNat 8 k)
        simpa [Memory.read, hk'] using e
      subst hu
      congr 1
      refine ih hm' hn' fun i => ?_
      by_cases hi : k = i.toNat
      · rw [read_eq_none fun c hc => hi ▸ hlt c hc, read_eq_none fun c hc => hi ▸ hlt2 c hc]
      · simpa [Memory.read, hi] using h i

/-- A fill of a canonical memory depends on the function alone. -/
theorem writeAll_eq_of_wf (f : Byte → BitVec w) {m n : Memory w} (hm : m.wf) (hn : n.wf) :
    m.writeAll f = n.writeAll f :=
  ext_of_wf (writeAll_wf f hm) (writeAll_wf f hn) fun i => by simp

end Sys2Proof.Laws.Memory
end

