-- ==== Sys2Proof/Laws/State.lean ====
section
/-! SUPPORT. One lemma per field of State per named update: what the update leaves there. -/

namespace Sys2Proof.Laws.State

open Sys2Proof.Machine

section respondFields

variable (st : Status) (v : BitVec 32) (s : State)

@[simp] theorem respond_t16 : (respond st v s).t16 = s.t16 := rfl
@[simp] theorem respond_t32 : (respond st v s).t32 = s.t32 := rfl
@[simp] theorem respond_built16 : (respond st v s).built16 = s.built16 := rfl
@[simp] theorem respond_built32 : (respond st v s).built32 = s.built32 := rfl
@[simp] theorem respond_commands : (respond st v s).commands = s.commands := rfl
@[simp] theorem respond_responses : (respond st v s).responses = s.responses ++ [⟨st, v⟩] := rfl

end respondFields

section raiseFaultFields

variable (st : Status) (s : State)

@[simp] theorem raiseFault_t16 : (raiseFault st s).t16 = s.t16 := rfl
@[simp] theorem raiseFault_t32 : (raiseFault st s).t32 = s.t32 := rfl
@[simp] theorem raiseFault_built16 : (raiseFault st s).built16 = s.built16 := rfl
@[simp] theorem raiseFault_built32 : (raiseFault st s).built32 = s.built32 := rfl
@[simp] theorem raiseFault_commands : (raiseFault st s).commands = s.commands := rfl
@[simp] theorem raiseFault_responses : (raiseFault st s).responses = s.responses ++ [⟨st, 0⟩] := rfl

end raiseFaultFields

section raiseIllegalFields

variable (why : Illegal) (s : State)

@[simp] theorem raiseIllegal_t16 : (raiseIllegal why s).t16 = s.t16 := rfl
@[simp] theorem raiseIllegal_t32 : (raiseIllegal why s).t32 = s.t32 := rfl
@[simp] theorem raiseIllegal_built16 : (raiseIllegal why s).built16 = s.built16 := rfl
@[simp] theorem raiseIllegal_built32 : (raiseIllegal why s).built32 = s.built32 := rfl
@[simp] theorem raiseIllegal_commands : (raiseIllegal why s).commands = s.commands := rfl
@[simp] theorem raiseIllegal_responses : (raiseIllegal why s).responses = s.responses ++ [⟨.errIllegal, 0⟩] := rfl

end raiseIllegalFields

section writeT16Fields

variable (f : Byte → BitVec 16) (s : State)

@[simp] theorem writeT16_t16 : (writeT16 f s).t16 = s.t16.writeAll f := rfl
@[simp] theorem writeT16_t32 : (writeT16 f s).t32 = s.t32 := rfl
@[simp] theorem writeT16_built16 : (writeT16 f s).built16 = s.built16 := rfl
@[simp] theorem writeT16_built32 : (writeT16 f s).built32 = s.built32 := rfl
@[simp] theorem writeT16_commands : (writeT16 f s).commands = s.commands := rfl
@[simp] theorem writeT16_responses : (writeT16 f s).responses = s.responses := rfl

end writeT16Fields

section writeT32Fields

variable (f : Byte → BitVec 32) (s : State)

@[simp] theorem writeT32_t16 : (writeT32 f s).t16 = s.t16 := rfl
@[simp] theorem writeT32_t32 : (writeT32 f s).t32 = s.t32.writeAll f := rfl
@[simp] theorem writeT32_built16 : (writeT32 f s).built16 = s.built16 := rfl
@[simp] theorem writeT32_built32 : (writeT32 f s).built32 = s.built32 := rfl
@[simp] theorem writeT32_commands : (writeT32 f s).commands = s.commands := rfl
@[simp] theorem writeT32_responses : (writeT32 f s).responses = s.responses := rfl

end writeT32Fields

section setBuilt16Fields

variable (s : State)

@[simp] theorem setBuilt16_t16 : (setBuilt16 s).t16 = s.t16 := rfl
@[simp] theorem setBuilt16_t32 : (setBuilt16 s).t32 = s.t32 := rfl
@[simp] theorem setBuilt16_built16 : (setBuilt16 s).built16 = true := rfl
@[simp] theorem setBuilt16_built32 : (setBuilt16 s).built32 = s.built32 := rfl
@[simp] theorem setBuilt16_commands : (setBuilt16 s).commands = s.commands := rfl
@[simp] theorem setBuilt16_responses : (setBuilt16 s).responses = s.responses := rfl

end setBuilt16Fields

section setBuilt32Fields

variable (s : State)

@[simp] theorem setBuilt32_t16 : (setBuilt32 s).t16 = s.t16 := rfl
@[simp] theorem setBuilt32_t32 : (setBuilt32 s).t32 = s.t32 := rfl
@[simp] theorem setBuilt32_built16 : (setBuilt32 s).built16 = s.built16 := rfl
@[simp] theorem setBuilt32_built32 : (setBuilt32 s).built32 = true := rfl
@[simp] theorem setBuilt32_commands : (setBuilt32 s).commands = s.commands := rfl
@[simp] theorem setBuilt32_responses : (setBuilt32 s).responses = s.responses := rfl

end setBuilt32Fields

section issueFirstFields

variable (cw : CmdWord) (s : State)

@[simp] theorem issueFirst_t16 : (issueFirst cw s).t16 = s.t16 := rfl
@[simp] theorem issueFirst_t32 : (issueFirst cw s).t32 = s.t32 := rfl
@[simp] theorem issueFirst_built16 : (issueFirst cw s).built16 = s.built16 := rfl
@[simp] theorem issueFirst_built32 : (issueFirst cw s).built32 = s.built32 := rfl
@[simp] theorem issueFirst_commands : (issueFirst cw s).commands = cw :: s.commands := rfl
@[simp] theorem issueFirst_responses : (issueFirst cw s).responses = s.responses := rfl

end issueFirstFields

section resetBlockFields

variable (s : State)

@[simp] theorem resetBlock_t16 : (resetBlock s).t16 = [] := rfl
@[simp] theorem resetBlock_t32 : (resetBlock s).t32 = [] := rfl
@[simp] theorem resetBlock_built16 : (resetBlock s).built16 = false := rfl
@[simp] theorem resetBlock_built32 : (resetBlock s).built32 = false := rfl
@[simp] theorem resetBlock_commands : (resetBlock s).commands = s.commands := rfl
@[simp] theorem resetBlock_responses : (resetBlock s).responses = s.responses := rfl

end resetBlockFields

@[simp] theorem idle_eq (s : State) : idle s = s := rfl

end Sys2Proof.Laws.State
end

