-- ==== Sys2Proof/Laws/Step.lean ====
section
/-! SUPPORT. What each shared operation, each command and a step can do, said once. -/

namespace Sys2Proof.Laws

open Sys2Proof.Machine Sys2Proof.Safety

/-- Everything `answerFromTable` can answer with a next state. -/
theorem answerFromTable_next {built : Bool} {value : Option (BitVec 32)} {s t : State}
    (h : answerFromTable built value s = .next t) :
    (built = true ∧ ∃ v, value = some v ∧ t = respond .ok v s) ∨ (built = false ∧ t = raiseFault .errNotBuilt s) := by
  cases built with
  | false => exact .inr ⟨rfl, by simpa [answerFromTable] using h.symm⟩
  | true =>
    cases value with
    | none => simp [answerFromTable] at h
    | some v => exact .inl ⟨rfl, v, rfl, by simpa [answerFromTable] using h.symm⟩

theorem answerFromTable_notBuilt (value : Option (BitVec 32)) (s : State) :
    answerFromTable false value s = .next (raiseFault .errNotBuilt s) := rfl

theorem answerFromTable_some (v : BitVec 32) (s : State) :
    answerFromTable true (some v) s = .next (respond .ok v s) := rfl

/-- Everything a command can do when it answers a next state: a build, or one more response. -/
theorem exec_next {i : Instr} {s t : State} (h : exec i s = .next t) :
    (i = .bld16 ∧ t = respond .ok 0 (setBuilt16 (writeT16 entry16 s)))
      ∨ (i = .bld32 ∧ t = respond .ok 0 (setBuilt32 (writeT32 entry32 s)))
      ∨ (isBuild i = false ∧ tableReady i s = true ∧ ∃ v, t = respond .ok v s)
      ∨ (isBuild i = false ∧ tableReady i s = false ∧ t = raiseFault .errNotBuilt s) := by
  cases i with
  | bld16 => exact .inl ⟨rfl, by simpa [exec, execBld16] using h.symm⟩
  | bld32 => exact .inr (.inl ⟨rfl, by simpa [exec, execBld32] using h.symm⟩)
  | upd16 _ _ | rdt16 _ | upd32 _ _ | rdt32 _ =>
    obtain ⟨hb, v, -, rfl⟩ | ⟨hb, rfl⟩ := answerFromTable_next h
    · exact .inr (.inr (.inl ⟨rfl, hb, v, rfl⟩))
    · exact .inr (.inr (.inr ⟨rfl, hb, rfl⟩))

theorem takeCommand_nil {s : State} (h : s.commands = []) : takeCommand s = none := by
  simp [takeCommand, h]

theorem takeCommand_cons {s : State} {cw : CmdWord} {rest : List CmdWord} (h : s.commands = cw :: rest) :
    takeCommand s = some (cw, { s with commands := rest }) := by
  simp [takeCommand, h]

/-- Everything a step can do when it answers a next state. -/
theorem step_next {s t : State} (h : step s = .next t) :
    (s.commands = [] ∧ t = s)
      ∨ ∃ cw rest, s.commands = cw :: rest
          ∧ ((∃ why, decode cw = .error why ∧ t = raiseFault .errIllegal { s with commands := rest })
            ∨ ∃ i, decode cw = .ok i ∧ exec i { s with commands := rest } = .next t) := by
  cases hc : s.commands with
  | nil =>
    rw [step, takeCommand_nil hc] at h
    exact .inl ⟨rfl, by simpa using h.symm⟩
  | cons cw rest =>
    rw [step, takeCommand_cons hc] at h
    refine .inr ⟨cw, rest, rfl, ?_⟩
    cases hd : decode cw with
    | error why =>
      simp only [hd] at h
      exact .inl ⟨why, rfl, by simpa [raiseIllegal] using h.symm⟩
    | ok i =>
      simp only [hd] at h
      exact .inr ⟨i, rfl, h⟩

/-- A half of the block after its build. -/
theorem halfInv_writeAll {w : Nat} {m : Memory w} (h : m.wf) (entry : Byte → BitVec w) :
    HalfInv (m.writeAll entry) true entry :=
  ⟨Memory.writeAll_wf entry h, fun _ i => Memory.read_writeAll entry m i, nofun⟩

/-- A half of the block before its first build. -/
theorem halfInv_nil {w : Nat} (entry : Byte → BitVec w) : HalfInv ([] : Memory w) false entry :=
  ⟨Memory.wf_nil, nofun, fun _ _ => rfl⟩

theorem run_zero (s : State) : run 0 s = .next s := rfl

theorem run_succ (k : Nat) (s : State) :
    run (k + 1) s = match step s with
      | .next t => run k t
      | .fault r => .fault r
      | .refused r => .refused r := rfl

/-- The host's run of a machine, one step at a time. -/
theorem core_run_succ (M : Host.Core) (k : Nat) (s : M.State) :
    (∀ t, M.step s = .next t → M.run (k + 1) s = M.run k t)
      ∧ (∀ r, M.step s = .fault r → M.run (k + 1) s = .fault r)
      ∧ ∀ r, M.step s = .refused r → M.run (k + 1) s = .refused r :=
  ⟨fun t h => by rw [Host.Core.run, h], fun r h => by rw [Host.Core.run, h], fun r h => by rw [Host.Core.run, h]⟩

/-- The run of the claims is the host's run of the machine. -/
theorem run_eq_core (k : Nat) (s : State) : Sys2Proof.core.run k s = run k s := by
  induction k generalizing s with
  | zero => rfl
  | succ k ih =>
    have c := core_run_succ Sys2Proof.core k s
    rw [run_succ]
    cases h : step s with
    | next t => exact (c.1 t h).trans (ih t)
    | fault r => exact c.2.1 r h
    | refused r => exact c.2.2 r h

/-- A run of one step more that does not stop is a step and then a run. -/
theorem runsTo_succ {k : Nat} {s u : State} : RunsTo (k + 1) s u ↔ ∃ t, step s = .next t ∧ RunsTo k t u := by
  rw [RunsTo, run_succ]
  cases step s with
  | next t => simp
  | fault _ => simp
  | refused _ => simp

/-- An invariant of the step is one of every run. -/
theorem run_induct {P : State → Prop} (hstep : ∀ s t, P s → step s = .next t → P t) :
    ∀ {k s t}, P s → RunsTo k s t → P t := by
  intro k
  induction k with
  | zero => rintro s t hs ⟨⟩; exact hs
  | succ k ih =>
    intro s t hs h
    obtain ⟨u, hu, h⟩ := runsTo_succ.mp h
    exact ih (hstep _ _ hs hu) h

end Sys2Proof.Laws
end

