-- ==== Sys2Proof/Laws/PerInstr.lean ====
section
/-! SUPPORT. Families of statements made per constructor of Instr.
MatchesRow: the word the encoder writes matches the opcode table's row of the same command
(30_encoding.md R34, R35), and the command is well-formed. -/

namespace Sys2Proof.Laws.MatchesRow

/-- The encoded command matches its row's pattern, and its operands are in range. -/
def Statement (i : Instr) : Prop := (rowOf i).hits (encode i) = true ∧ i.wellFormed = true

theorem bld16 : Statement .bld16 := by unfold Statement; decide

theorem upd16 (crc : BitVec 16) (byte : Byte) : Statement (.upd16 crc byte) := by
  refine ⟨?_, by simp [Instr.wellFormed, operandFits]; omega⟩
  simp only [rowOf, rowUpd16, Row.hits, encode, commandWord, beq_iff_eq]
  ext k hk
  simp only [BitVec.getElem_and, BitVec.getElem_append]
  interval_cases k <;> simp

theorem rdt16 (idx : Byte) : Statement (.rdt16 idx) := by
  refine ⟨?_, by simp [Instr.wellFormed, operandFits]; omega⟩
  simp only [rowOf, rowRdt16, Row.hits, encode, commandWord, beq_iff_eq]
  ext k hk
  simp only [BitVec.getElem_and, BitVec.getElem_append]
  interval_cases k <;> simp

theorem bld32 : Statement .bld32 := by unfold Statement; decide

theorem upd32 (crc : BitVec 32) (byte : Byte) : Statement (.upd32 crc byte) := by
  refine ⟨?_, by simp [Instr.wellFormed, operandFits]; omega⟩
  simp only [rowOf, rowUpd32, Row.hits, encode, commandWord, beq_iff_eq]
  ext k hk
  simp only [BitVec.getElem_and, BitVec.getElem_append]
  interval_cases k <;> simp

theorem rdt32 (idx : Byte) : Statement (.rdt32 idx) := by
  refine ⟨?_, by simp [Instr.wellFormed, operandFits]; omega⟩
  simp only [rowOf, rowRdt32, Row.hits, encode, commandWord, beq_iff_eq]
  ext k hk
  simp only [BitVec.getElem_and, BitVec.getElem_append]
  interval_cases k <;> simp

end Sys2Proof.Laws.MatchesRow
end

