-- ==== Sys2Proof/Tests/Slice0.lean ====
section
/-! SUPPORT. The model's own tests, expected values from spec/ (each names its place), and one witness per statement that has
hypotheses. -/

namespace Sys2Proof.Tests

open Sys2Proof Sys2Proof.Machine Sys2Proof.Safety

/-! ## Helpers -/

/-- The next state of an outcome. -/
def after : Host.Outcome State Fault Refusal → Option State
  | .next s => some s
  | .fault _ => none
  | .refused _ => none

/-- The last response of an outcome's next state. -/
def answer (o : Host.Outcome State Fault Refusal) : Option Response := (after o).bind fun s => s.responses.getLast?

/-- Reset with one command word to come. -/
def facingWord (cw : CmdWord) : State := { State.reset with commands := [cw] }

/-- A block with the CRC16 entries that the tests read, and its flag (95_test_vectors.md section 3). -/
def small16 : State :=
  { State.reset with
    t16 := [(0x00, 0x0000), (0x31, 0xD4C1), (0x62, 0xE981), (0xF3, 0x4540), (0xFF, 0x4040)], built16 := true }

/-- A block with the CRC32 entries that the tests read, and its flag (95_test_vectors.md section 4). -/
def small32 : State :=
  { State.reset with
    t32 := [(0x00, 0x00000000), (0x01, 0x77073096), (0xCE, 0x7CDCEFB7), (0xFF, 0x2D02EF8D)], built32 := true }

/-- A block with both tables built. -/
def bothBuilt : State :=
  { State.reset with
    t16 := Memory.writeAll entry16 [], t32 := Memory.writeAll entry32 [], built16 := true, built32 := true }

theorem bothBuilt_inv : BlockInv bothBuilt :=
  ⟨Laws.halfInv_writeAll Laws.Memory.wf_nil _, Laws.halfInv_writeAll Laws.Memory.wf_nil _⟩

theorem reset_inv : BlockInv State.reset := ⟨Laws.halfInv_nil _, Laws.halfInv_nil _⟩

/-- The invariant does not look at the two ends of the interface. -/
theorem inv_facing {s : State} (h : BlockInv s) (cws : List CmdWord) : BlockInv (facing s cws) := ⟨h.half16, h.half32⟩

/-! ## Well-formedness: an ill-formed term for each check -/

theorem test_operand_too_wide_for_crc16 : operandFits 16 0x1D4C1 = false := by decide
theorem test_operand_too_wide_for_byte : operandFits 8 256 = false := by decide
theorem test_operand_too_wide_for_crc32 : operandFits 32 0x100000000 = false := by decide
theorem test_operand_boundary_fits : operandFits 16 0xFFFF = true ∧ operandFits 8 255 = true := by decide
/-- 95_test_vectors.md section 7: reserved operation codes. -/
theorem test_word_reserved_op :
    [0x000000000000, 0x400000000000, 0x800000000000, 0x900000000000, 0xFFFFFFFFFFFF].map wellFormedWord
      = [false, false, false, false, false] := by decide
/-- 95_test_vectors.md section 7: a non-zero reserved field. -/
theorem test_word_reserved_bits :
    [0x110000000000, 0x210000000031, 0x680000000000].map wellFormedWord = [false, false, false] := by decide
/-- 95_test_vectors.md section 7: a bit in an operand field the command does not use. -/
theorem test_word_unused_bits :
    [0x100000000001, 0x100000000100, 0x500000000100, 0x200001000031, 0x2000FFFFFF00, 0x20FFFF000000, 0x300000000100,
      0x708000000000].map wellFormedWord = [false, false, false, false, false, false, false, false] := by decide

/-! ## Decoding: a word written out from R34's pattern for every constructor (op, rsv, crc, byte or idx) -/

theorem test_decode_bld16 :
    decode 0b000100000000000000000000000000000000000000000000 = .ok .bld16 := by decide
/-- crc 1101 0100 1100 0001, byte 0011 0010. -/
theorem test_decode_upd16 :
    decode 0b001000000000000000000000110101001100000100110010 = .ok (.upd16 0xD4C1 0x32) := by decide
/-- idx 1000 0001. -/
theorem test_decode_rdt16 :
    decode 0b001100000000000000000000000000000000000010000001 = .ok (.rdt16 0x81) := by decide
theorem test_decode_bld32 :
    decode 0b010100000000000000000000000000000000000000000000 = .ok .bld32 := by decide
/-- crc 0111 1100 0010 0011 0001 0000 0100 1000, byte 0011 0010. -/
theorem test_decode_upd32 :
    decode 0b011000000111110000100011000100000100100000110010 = .ok (.upd32 0x7C231048 0x32) := by decide
/-- idx 0111 1110. -/
theorem test_decode_rdt32 :
    decode 0b011100000000000000000000000000000000000001111110 = .ok (.rdt32 0x7E) := by decide
/-- 30_encoding.md section 8: why each word is illegal. -/
theorem test_decode_names_illegal_words :
    [0x000000000000, 0x210000000031, 0x200001D4C132].map decode
      = [.error .reservedOp, .error .reservedBits, .error .unusedOperandBits] := by decide
/-- R35: the encoder's words, 95_test_vectors.md sections 5.1 and 5.2. -/
theorem test_encode_words :
    [.upd16 0xBA04 0x34, .upd32 0xB0ACBB32 0x33, .rdt16 0xFF, .rdt32 0x80].map encode
      = [0x200000BA0434, 0x60B0ACBB3233, 0x3000000000FF, 0x700000000080] := by decide
theorem test_table_word_reads_row : decodeTableWord 48 0x300000000001 = some (.rdt16 0x01) := by decide
theorem test_table_word_too_long : decodeTableWord 49 0x300000000001 = none := by decide
/-- 30_encoding.md section 8: response words. -/
theorem test_response_words :
    [⟨.ok, 0x0000D4C1⟩, ⟨.errIllegal, 0⟩, ⟨.errNotBuilt, 0⟩].map responseWord
      = [0x00000D4C1, 0x100000000, 0x200000000] := by decide
/-- 30_encoding.md section 8: written forms. -/
theorem test_written_forms :
    written (.upd32 0xFFFFFFFF 0x31) = "UPD32 0xFFFFFFFF, 0x31".toList
      ∧ written (.rdt16 0x0A) = "RDT16 0x0A".toList := by decide

/-! ## Tables: the eight generating entries of each (95_test_vectors.md section 2.3), and table rows (sections 3, 4) -/

theorem test_entry16_generators :
    [0x01, 0x02, 0x04, 0x08, 0x10, 0x20, 0x40, 0x80].map entry16
      = [0xC0C1, 0xC181, 0xC301, 0xC601, 0xCC01, 0xD801, 0xF001, 0xA001] := by decide
theorem test_entry32_generators :
    [0x01, 0x02, 0x04, 0x08, 0x10, 0x20, 0x40, 0x80].map entry32
      = [0x77073096, 0xEE0E612C, 0x076DC419, 0x0EDB8832, 0x1DB71064, 0x3B6E20C8, 0x76DC4190, 0xEDB88320] := by decide
theorem test_entry16_row_0xF0 :
    [0xF0, 0xF1, 0xF2, 0xF3, 0xFC, 0xFD, 0xFE, 0xFF].map entry16
      = [0x4400, 0x84C1, 0x8581, 0x4540, 0x4100, 0x81C1, 0x8081, 0x4040] := by decide
theorem test_entry32_row_0xC8 :
    [0xC8, 0xC9, 0xCA, 0xCB, 0xCC, 0xCD, 0xCE, 0xCF].map entry32
      = [0x95BF4A82, 0xE2B87A14, 0x7BB12BAE, 0x0CB61B38, 0x92D28E9B, 0xE5D5BE0D, 0x7CDCEFB7, 0x0BDBDF21] := by decide

/-! ## One step -/

/-- 40_table_builder.md R42: from reset, `BLD16` makes `T16[0xFF] = 0x4040` and sets the flag. -/
theorem test_bld16_from_reset :
    ∃ t, step (facingWord 0x100000000000) = .next t ∧ t.t16.read 0xFF = some 0x4040 ∧ t.built16 = true
      ∧ t.built32 = false ∧ t.responses = [⟨.ok, 0⟩] :=
  ⟨_, rfl, Laws.Memory.read_writeAll _ _ _, rfl, rfl, rfl⟩
/-- 40_table_builder.md R43: from reset, `BLD32` makes `T32[0xFF] = 0x2D02EF8D` and sets the flag. -/
theorem test_bld32_from_reset :
    ∃ t, step (facingWord 0x500000000000) = .next t ∧ t.t32.read 0xFF = some 0x2D02EF8D ∧ t.built32 = true
      ∧ t.built16 = false ∧ t.responses = [⟨.ok, 0⟩] :=
  ⟨_, rfl, Laws.Memory.read_writeAll _ _ _, rfl, rfl, rfl⟩
/-- 95_test_vectors.md section 5.1, step 2. -/
theorem test_upd16_second_byte :
    answer (step { small16 with commands := [0x200000D4C132] }) = some ⟨.ok, 0x00004594⟩ := by decide
/-- 95_test_vectors.md section 5.4: `byte = crc[7:0]` gives index 0 and `crc >> 8`. -/
theorem test_upd16_index_zero : answer (exec (.upd16 0xFFFF 0xFF) small16) = some ⟨.ok, 0x000000FF⟩ := by decide
/-- 95_test_vectors.md section 5.2, step 1. -/
theorem test_upd32_first_byte :
    answer (step { small32 with commands := [0x60FFFFFFFF31] }) = some ⟨.ok, 0x7C231048⟩ := by decide
/-- 95_test_vectors.md section 5.4: the top bit of crc moves to bit 23. -/
theorem test_upd32_top_bit : answer (exec (.upd32 0x80000000 0x01) small32) = some ⟨.ok, 0x77873096⟩ := by decide
/-- 95_test_vectors.md section 7, `RDT16 0xFF`. -/
theorem test_rdt16_last_entry : answer (exec (.rdt16 0xFF) small16) = some ⟨.ok, 0x00004040⟩ := by decide
/-- 95_test_vectors.md section 8: `RDT16` at reset. -/
theorem test_rdt16_not_built :
    after (exec (.rdt16 0x61) State.reset) = some { State.reset with responses := [⟨.errNotBuilt, 0⟩] } := by decide
/-- 30_encoding.md section 8, `RDT32 0x01`. -/
theorem test_rdt32_first_entry : answer (exec (.rdt32 0x01) small32) = some ⟨.ok, 0x77073096⟩ := by decide
/-- 95_test_vectors.md section 8: building T16 does not build T32. -/
theorem test_rdt32_not_built : answer (exec (.rdt32 0x01) small16) = some ⟨.errNotBuilt, 0⟩ := by decide
/-- 95_test_vectors.md section 8: illegal is decided before not-built. -/
theorem test_illegal_before_not_built :
    answer (step (facingWord 0x200001000031)) = some ⟨.errIllegal, 0⟩ := by decide
/-- 95_test_vectors.md section 9, P6: an ill-formed build builds nothing. -/
theorem test_illegal_build_builds_nothing :
    after (step (facingWord 0x100000000001)) = some { State.reset with responses := [⟨.errIllegal, 0⟩] } := by decide
/-- 70_reset_and_hazards.md R95: reset of a built block. -/
theorem test_reset_clears : resetBlock small16 = State.reset := by decide

/-! ## Sessions (95_test_vectors.md sections 5 and 6) -/

theorem test_crc16_check_value : crc16 [0x31, 0x32, 0x33, 0x34, 0x35, 0x36, 0x37, 0x38, 0x39] = 0xBB3D := by decide
theorem test_crc32_check_value : crc32 [0x31, 0x32, 0x33, 0x34, 0x35, 0x36, 0x37, 0x38, 0x39] = 0xCBF43926 := by decide
theorem test_crc32_four_ff : crc32 [0xFF, 0xFF, 0xFF, 0xFF] = 0xFFFFFFFF ∧ crc16 [0xFF, 0xFF, 0xFF, 0xFF] = 0x9401 := by decide
/-- Section 5.3 with the entry it reads: one streamed byte is the running value of the next. -/
theorem test_stream_first_byte :
    (streamBytes [0x31] (startSession ⟨true, false⟩) small16).map Prod.fst = some ⟨some 0xD4C1, none⟩ := by decide

/-! ## Witnesses: the hypotheses of each statement can be met together -/

theorem witness_ResetLeavesNoTable : isBuild (.rdt32 0xFF) = false := by decide

theorem witness_BlockInvariantKeptByStep :
    ∃ t, BlockInv (facing bothBuilt [0x300000000001]) ∧ step (facing bothBuilt [0x300000000001]) = .next t :=
  ⟨_, inv_facing bothBuilt_inv _, by
    rw [step, Laws.takeCommand_cons rfl]
    show answerFromTable true ((Memory.read bothBuilt.t16 0x01).map value16) _ = _
    rw [show bothBuilt.t16 = Memory.writeAll entry16 [] from rfl, Laws.Memory.read_writeAll]
    rfl⟩

theorem witness_CanonicalTablesKeptByStep :
    ∃ t, Canonical small16 ∧ step { small16 with commands := [0x500000000000] } = .next t :=
  ⟨_, by decide, rfl⟩

theorem witness_BuiltTableNeverChanges :
    ∃ t, BlockInv (facing bothBuilt [0x100000000000, 0x500000000000])
      ∧ RunsTo 3 (facing bothBuilt [0x100000000000, 0x500000000000]) t
      ∧ (facing bothBuilt [0x100000000000, 0x500000000000]).built16 = true
      ∧ (facing bothBuilt [0x100000000000, 0x500000000000]).built32 = true :=
  ⟨_, inv_facing bothBuilt_inv _, rfl, rfl, rfl⟩

theorem witness_BuiltTableNeverChanges_builds :
    (∃ t, step (facingWord 0x100000000000) = .next t) ∧ (facingWord 0x100000000000).commands.head? = some 0x100000000000
      ∧ (facingWord 0x100000000000).commands.head? ≠ some 0x500000000000
      ∧ (∃ t, step (facingWord 0x500000000000) = .next t) ∧ (facingWord 0x500000000000).commands.head? = some 0x500000000000
      ∧ (facingWord 0x500000000000).commands.head? ≠ some 0x100000000000 :=
  ⟨⟨_, rfl⟩, by decide, by decide, ⟨_, rfl⟩, by decide, by decide⟩

theorem witness_FlagSetByItsBuildAlone_set16 :
    ∃ t, step (facingWord 0x100000000000) = .next t ∧ t.built16 = true ∧ t.built32 = false := ⟨_, rfl, rfl, rfl⟩
theorem witness_FlagSetByItsBuildAlone_set32 :
    ∃ t, step (facingWord 0x500000000000) = .next t ∧ t.built16 = false ∧ t.built32 = true := ⟨_, rfl, rfl, rfl⟩
theorem witness_FlagSetByItsBuildAlone_unset :
    ∃ t, step (facingWord 0x100000000001) = .next t ∧ t.built16 = false ∧ t.built32 = false := ⟨_, rfl, rfl, rfl⟩

theorem witness_FourReachableBlockStates :
    BlockInv bothBuilt ∧ BlockInv (facing bothBuilt [0x0]) ∧ (facing bothBuilt [0x0]).built16 = bothBuilt.built16
      ∧ (facing bothBuilt [0x0]).built32 = bothBuilt.built32 :=
  ⟨bothBuilt_inv, inv_facing bothBuilt_inv _, rfl, rfl⟩

theorem witness_StepRunsDecodedCommand :
    (facingWord 0x3000000000FF).commands = 0x3000000000FF :: [] ∧ decode 0x3000000000FF = .ok (.rdt16 0xFF)
      ∧ (Instr.rdt16 0xFF).wellFormed = true := by decide

theorem witness_StepIdlesWithoutCommand : State.reset.commands = [] := by decide

theorem witness_IllegalWordAnsweredErrIllegal :
    (facingWord 0x20FFFF000000).commands = 0x20FFFF000000 :: [] ∧ wellFormedWord 0x20FFFF000000 = false := by decide

theorem witness_EveryWordGetsOneResponse :
    BlockInv (facing bothBuilt [0x60FFFFFFFF31]) ∧ (facing bothBuilt [0x60FFFFFFFF31]).commands = 0x60FFFFFFFF31 :: [] :=
  ⟨inv_facing bothBuilt_inv _, rfl⟩

theorem witness_MachineRefinesPureStepFunction :
    BlockInv (facing bothBuilt [0x60FFFFFFFF31, 0xFFFFFFFFFFFF, 0x100000000000]) := inv_facing bothBuilt_inv _

theorem witness_DecodeAndEncodeAreInverse_encode :
    (Instr.upd32 0xFFFFFFFF 0xFF).wellFormed = true ∧ (Instr.upd16 0 0).wellFormed = true := by decide
theorem witness_DecodeAndEncodeAreInverse_decode : decode 0x20000000FFFF = .ok (.upd16 0x00FF 0xFF) := by decide

theorem witness_PatternDecidesCommand : rowUpd16 ∈ opcodeTable ∧ rowUpd16.hits 0x200000FFFFFF = true := by decide

theorem witness_DecoderRefusesExactlyIllegalWords :
    (facingWord 0x100000000100).commands = 0x100000000100 :: []
      ∧ decode 0x100000000100 = .error .unusedOperandBits := by decide
/-- One word at the boundary of each condition: refused, and its neighbour accepted. -/
theorem witness_DecoderRefusesExactlyIllegalWords_boundaries :
    [0x800000000000, 0x110000000000, 0x508000000000, 0x300000000100, 0x200001000000].map (fun cw => (decode cw).toOption.isSome)
        = [false, false, false, false, false]
      ∧ [0x700000000000, 0x100000000000, 0x500000000000, 0x3000000000FF, 0x200000FFFF00].map
          (fun cw => (decode cw).toOption.isSome) = [true, true, true, true, true] := by decide

theorem witness_OperationCodeSelectsCommand_legal : decode 0x7000000000FF = .ok (.rdt32 0xFF) := by decide
theorem witness_OperationCodeSelectsCommand_reserved :
    opField 0x000000000000 = 0x0 ∧ opField 0x400000000000 = 0x4 ∧ 0x8 ≤ (opField 0x800000000000).toNat
      ∧ 0x8 ≤ (opField 0xF00000000000).toNat := by decide

theorem witness_ResponseWordLayout :
    (0x300000000 : RspWord).extractLsb' 32 2 = 3 ∧ readResponseWord 0x2FFFFFFFF = some ⟨.errNotBuilt, 0xFFFFFFFF⟩ := by decide

theorem witness_WrittenFormDeterminesCommand : written (.upd16 0xFFFF 0x00) = written (.upd16 0xFFFF 0x00) := by decide

theorem witness_Bld16BuildsTable : HalfInv bothBuilt.t16 bothBuilt.built16 entry16 ∧ bothBuilt.built16 = true :=
  ⟨bothBuilt_inv.half16, rfl⟩

theorem witness_Bld32BuildsTable : HalfInv bothBuilt.t32 bothBuilt.built32 entry32 ∧ bothBuilt.built32 = true :=
  ⟨bothBuilt_inv.half32, rfl⟩

theorem witness_BuildsAreIdenticalAndIdempotent : Canonical State.reset ∧ Canonical small16 ∧ Canonical small32 := by decide

theorem witness_CopyAndSeededProceduresAgree : 8 ≤ 8 ∧ 8 ≤ 16 := by decide

theorem witness_Upd16_notBuilt : small32.built16 = false := by decide
theorem witness_Upd16_entry :
    small16.built16 = true ∧ small16.t16.read ((0xD4C1 : BitVec 16).setWidth 8 ^^^ 0x32) = some 0x4540 := by decide
theorem witness_Upd16_again : ∃ t, exec (.upd16 0xD4C1 0x32) small16 = .next t := ⟨_, rfl⟩
theorem witness_Upd16_table : HalfInv bothBuilt.t16 bothBuilt.built16 entry16 ∧ bothBuilt.built16 = true :=
  ⟨bothBuilt_inv.half16, rfl⟩

theorem witness_Upd32_notBuilt : small16.built32 = false := by decide
theorem witness_Upd32_entry :
    small32.built32 = true ∧ small32.t32.read ((0xFFFFFFFF : BitVec 32).setWidth 8 ^^^ 0x31) = some 0x7CDCEFB7 := by decide
theorem witness_Upd32_table : HalfInv bothBuilt.t32 bothBuilt.built32 entry32 ∧ bothBuilt.built32 = true :=
  ⟨bothBuilt_inv.half32, rfl⟩

theorem witness_Rdt16_notBuilt : State.reset.built16 = false := by decide
theorem witness_Rdt16_entry : small16.built16 = true ∧ small16.t16.read 0xFF = some 0x4040 := by decide
theorem witness_Rdt16_again : ∃ t, exec (.rdt16 0xFF) small16 = .next t := ⟨_, rfl⟩
theorem witness_Rdt16_table : HalfInv bothBuilt.t16 bothBuilt.built16 entry16 ∧ bothBuilt.built16 = true :=
  ⟨bothBuilt_inv.half16, rfl⟩

theorem witness_Rdt32_notBuilt : State.reset.built32 = false := by decide
theorem witness_Rdt32_entry : small32.built32 = true ∧ small32.t32.read 0x00 = some 0 := by decide
theorem witness_Rdt32_again : ∃ t, exec (.rdt32 0x00) small32 = .next t := ⟨_, rfl⟩
theorem witness_Rdt32_table : HalfInv bothBuilt.t32 bothBuilt.built32 entry32 ∧ bothBuilt.built32 = true :=
  ⟨bothBuilt_inv.half32, rfl⟩

theorem witness_ReadAgreesWithUpdate_16 :
    small16.built16 = true
      ∧ exec (.rdt16 ((0xD4C1 : BitVec 16).setWidth 8 ^^^ 0x32)) small16
          = .next (answered small16 .ok ((0x4540 : BitVec 16).setWidth 32)) := ⟨rfl, rfl⟩
theorem witness_ReadAgreesWithUpdate_32 :
    small32.built32 = true
      ∧ exec (.rdt32 ((0xFFFFFFFF : BitVec 32).setWidth 8 ^^^ 0x31)) small32 = .next (answered small32 .ok 0x7CDCEFB7) :=
  ⟨rfl, rfl⟩

theorem witness_UnbuiltTableFaults :
    tableReady (.upd16 0 0) small32 = false ∧ tableReady (.rdt16 0xFF) small32 = false
      ∧ tableReady (.upd32 0 0) small16 = false ∧ tableReady (.rdt32 0xFF) small16 = false := by decide

theorem witness_LegalCommandWithTableSucceeds :
    BlockInv bothBuilt ∧ tableReady (.upd16 0xFFFF 0xFF) bothBuilt = true ∧ tableReady (.rdt32 0x00) bothBuilt = true :=
  ⟨bothBuilt_inv, rfl, rfl⟩

theorem witness_UpdatesAndReadsWriteNoState_ok :
    isBuild (.upd16 0xFFFF 0xFF) = false
      ∧ ∃ t, exec (.upd16 0xFFFF 0xFF) small16 = .next t := ⟨rfl, _, rfl⟩
theorem witness_UpdatesAndReadsWriteNoState_fault :
    isBuild (.rdt32 0x00) = false ∧ ∃ t, exec (.rdt32 0x00) small16 = .next t := ⟨rfl, _, rfl⟩

theorem witness_FaultLeavesNoTrace :
    ∃ t, step (facing State.reset [0x200000000061, 0x100000000000]) = .next t ∧ lastStatus t ≠ some .ok :=
  ⟨_, rfl, by decide⟩

theorem witness_BuildRecoversFromNotBuilt : isCrc16 (.rdt16 0x61) = true ∧ isCrc32 (.upd32 0 0) = true := by decide

theorem witness_VariantsShareNoState : isCrc16 .bld16 = true ∧ isCrc32 .bld32 = true := by decide

theorem witness_InterleavingChangesNoResponse : BlockInv State.reset := reset_inv

theorem witness_BootDutyIsTheOnlyOrdering_kept :
    BlockInv State.reset ∧ bootDuty State.reset.built16 State.reset.built32 [.bld16, .rdt16 0x01] = true :=
  ⟨reset_inv, rfl⟩
theorem witness_BootDutyIsTheOnlyOrdering_broken :
    BlockInv State.reset ∧ bootDuty State.reset.built16 State.reset.built32 [.bld32, .rdt16 0x01] = false :=
  ⟨reset_inv, rfl⟩

theorem witness_BootBuildsActiveTables : BlockInv State.reset ∧ (⟨true, false⟩ : Variants).crc32 = false := ⟨reset_inv, rfl⟩

theorem witness_SessionYieldsChecksums :
    BlockInv bothBuilt ∧ ((⟨true, true⟩ : Variants).crc16 = true → bothBuilt.built16 = true)
      ∧ ((⟨true, true⟩ : Variants).crc32 = true → bothBuilt.built32 = true) :=
  ⟨bothBuilt_inv, fun _ => rfl, fun _ => rfl⟩

theorem witness_VariantsIndependentInSession :
    BlockInv bothBuilt ∧ bothBuilt.built16 = true ∧ bothBuilt.built32 = true := ⟨bothBuilt_inv, rfl, rfl⟩

end Sys2Proof.Tests
end

section
/-! The reset event (10_state.md R19, 70_reset_and_hazards.md R95) and the answer to a command whose table is not built
(60_exceptions.md R83). -/

namespace Sys2Proof.Proofs

open Sys2Proof.Machine Sys2Proof.Safety

/-- Ties the model's `respond` to the statements' `answered`. -/
theorem respond_eq_answered (st : Status) (v : BitVec 32) (s : State) : respond st v s = answered s st v := rfl

theorem raiseFault_eq_answered (st : Status) (s : State) : raiseFault st s = answered s st 0 :=
  respond_eq_answered st 0 s

/-- In any state: the flag is tested before the entry is looked at, so what the memory holds plays no part. -/
theorem exec_of_not_tableReady {i : Instr} {s : State} (h : tableReady i s = false) :
    exec i s = .next (answered s .errNotBuilt 0) := by
  rw [← raiseFault_eq_answered]
  cases i with
  | bld16 | bld32 => cases h
  | upd16 crc byte | rdt16 idx =>
    have hb : s.built16 = false := h
    simp only [exec, execUpd16, execRdt16, hb, Laws.answerFromTable_notBuilt]
  | upd32 crc byte | rdt32 idx =>
    have hb : s.built32 = false := h
    simp only [exec, execUpd32, execRdt32, hb, Laws.answerFromTable_notBuilt]

theorem tableReady_resetBlock (i : Instr) (s : State) : tableReady i (resetBlock s) = isBuild i := by
  cases i <;> rfl

theorem sameBlock_reset_resetBlock (s : State) : SameBlock State.reset (resetBlock s) :=
  ⟨⟨Laws.State.resetBlock_t16 s, Laws.State.resetBlock_built16 s⟩,
    Laws.State.resetBlock_t32 s, Laws.State.resetBlock_built32 s⟩

/-- Settles O1: both tables are empty at reset, and after the reset event the table of a command that is no build is not
ready. -/
theorem resetLeavesNoTable : Obligations.ResetLeavesNoTable := by
  refine ⟨⟨rfl, rfl, Laws.Memory.read_nil, Laws.Memory.read_nil⟩, sameBlock_reset_resetBlock, fun i s hi => ?_⟩
  have hready : tableReady i (resetBlock s) = false := (tableReady_resetBlock i s).trans hi
  exact exec_of_not_tableReady hready

end Sys2Proof.Proofs
end

section
/-! The command word (30_encoding.md R33 to R37): which fields each of the six patterns fixes, that the decoder and the encoder
are inverse to each other, and which words are illegal. -/

namespace Sys2Proof.Proofs

open Sys2Proof.Machine Sys2Proof.Safety

/-! ## Fields of a word -/

theorem append_eq_append_iff {m n : Nat} {x x' : BitVec m} {y y' : BitVec n} :
    x ++ y = x' ++ y' ↔ x = x' ∧ y = y' := by
  constructor
  · intro h
    have hx := congrArg (BitVec.extractLsb' n m) h
    have hy := congrArg (BitVec.extractLsb' 0 n) h
    rw [BitVec.extractLsb'_append_eq_left, BitVec.extractLsb'_append_eq_left] at hx
    rw [BitVec.extractLsb'_append_eq_right, BitVec.extractLsb'_append_eq_right] at hy
    exact ⟨hx, hy⟩
  · rintro ⟨rfl, rfl⟩
    rfl

/-- The operand bits `CW[39:0]` are 0 exactly when both operand fields are (R31). -/
theorem operandBits_eq_zero_iff (cw : CmdWord) :
    cw.extractLsb' 0 40 = 0 ↔ crcField cw = 0 ∧ byteField cw = 0 := by
  have hsplit : crcField cw ++ byteField cw = cw.extractLsb' 0 40 :=
    BitVec.extractLsb'_append_extractLsb'_eq_extractLsb' (len₁ := 8) (len₂ := 32) rfl
  rw [← hsplit]
  exact append_eq_append_iff (x' := 0) (y' := 0)

/-- Of the crc field, the mask of `UPD16` compares the high half (R34). -/
theorem crcField_and_highMask_eq_zero_iff (cw : CmdWord) :
    crcField cw &&& 0xFFFF0000 = 0 ↔ crcHighField cw = 0 := by
  have hmask : crcField cw &&& 0xFFFF0000 = crcHighField cw ++ 0#16 := by
    rw [Laws.crcField_halves]
    change (crcHighField cw ++ crcLowField cw : BitVec (16 + 16)) &&& (BitVec.allOnes 16 ++ 0#16) = _
    rw [BitVec.and_append, BitVec.and_allOnes, BitVec.and_zero]
  rw [hmask]
  exact (append_eq_append_iff (x' := 0)).trans (and_iff_left rfl)

/-- The layout of R35, read field by field. -/
theorem commandWord_eq_iff {op : BitVec 4} {crc : BitVec 32} {byte : Byte} {cw : CmdWord} :
    commandWord op crc byte = cw ↔
      opField cw = op ∧ rsvField cw = 0 ∧ crcField cw = crc ∧ byteField cw = byte := by
  constructor
  · rintro rfl
    simp
  · rintro ⟨rfl, hrsv, rfl, rfl⟩
    exact Laws.commandWord_fields hrsv

/-- A 16-bit running value stands in the low half of the crc field, with the high half 0 (R35). -/
theorem crcField_eq_setWidth_iff {cw : CmdWord} {crc : BitVec 16} :
    crcField cw = crc.setWidth 32 ↔ crcHighField cw = 0 ∧ crcLowField cw = crc := by
  have hzext : crc.setWidth 32 = 0#16 ++ crc := BitVec.setWidth_eq_append (by decide)
  rw [Laws.crcField_halves, hzext]
  exact append_eq_append_iff

/-! ## The six patterns -/

/-- Every row compares `op` and `rsv` in full, and asks 0 of `rsv` and of the operand bits it compares (R34). -/
theorem row_fields_of_mem {r : Row} (hr : r ∈ opcodeTable) :
    opField r.mask = BitVec.allOnes 4 ∧ rsvField r.mask = BitVec.allOnes 4
      ∧ rsvField r.bits = 0 ∧ crcField r.bits = 0 ∧ byteField r.bits = 0 := by
  revert r
  decide

theorem hits_iff_of_mem {r : Row} (hr : r ∈ opcodeTable) (cw : CmdWord) :
    r.hits cw = true ↔ opField cw = opField r.bits ∧ rsvField cw = 0
      ∧ crcField cw &&& crcField r.mask = 0 ∧ byteField cw &&& byteField r.mask = 0 := by
  obtain ⟨hop, hrsv, hbits, hcrc, hbyte⟩ := row_fields_of_mem hr
  rw [Laws.hits_iff_fields, hop, hrsv, hbits, hcrc, hbyte, BitVec.and_allOnes, BitVec.and_allOnes]

theorem hits_iff_of_buildMask {r : Row} (hr : r ∈ opcodeTable) (hmask : r.mask = 0xFFFFFFFFFFFF) (cw : CmdWord) :
    r.hits cw = true ↔ opField cw = opField r.bits ∧ rsvField cw = 0 ∧ crcField cw = 0 ∧ byteField cw = 0 := by
  rw [hits_iff_of_mem hr, hmask]
  change _ ∧ _ ∧ crcField cw &&& BitVec.allOnes 32 = 0 ∧ byteField cw &&& BitVec.allOnes 8 = 0 ↔ _
  rw [BitVec.and_allOnes, BitVec.and_allOnes]

theorem hits_iff_of_readMask {r : Row} (hr : r ∈ opcodeTable) (hmask : r.mask = 0xFFFFFFFFFF00) (cw : CmdWord) :
    r.hits cw = true ↔ opField cw = opField r.bits ∧ rsvField cw = 0 ∧ crcField cw = 0 := by
  rw [hits_iff_of_mem hr, hmask]
  change _ ∧ _ ∧ crcField cw &&& BitVec.allOnes 32 = 0 ∧ byteField cw &&& 0#8 = 0#8 ↔ _
  simp only [BitVec.and_allOnes, BitVec.and_zero, and_true]

theorem hits_rowBld16 (cw : CmdWord) :
    rowBld16.hits cw = true ↔ opField cw = 0x1 ∧ rsvField cw = 0 ∧ crcField cw = 0 ∧ byteField cw = 0 :=
  hits_iff_of_buildMask (by decide) rfl cw

theorem hits_rowUpd16 (cw : CmdWord) :
    rowUpd16.hits cw = true ↔ opField cw = 0x2 ∧ rsvField cw = 0 ∧ crcHighField cw = 0 := by
  rw [hits_iff_of_mem (by decide)]
  change opField cw = 0x2 ∧ _ ∧ crcField cw &&& 0xFFFF0000 = 0 ∧ byteField cw &&& 0#8 = 0#8 ↔ _
  simp only [crcField_and_highMask_eq_zero_iff, BitVec.and_zero, and_true]

theorem hits_rowRdt16 (cw : CmdWord) :
    rowRdt16.hits cw = true ↔ opField cw = 0x3 ∧ rsvField cw = 0 ∧ crcField cw = 0 :=
  hits_iff_of_readMask (by decide) rfl cw

theorem hits_rowBld32 (cw : CmdWord) :
    rowBld32.hits cw = true ↔ opField cw = 0x5 ∧ rsvField cw = 0 ∧ crcField cw = 0 ∧ byteField cw = 0 :=
  hits_iff_of_buildMask (by decide) rfl cw

theorem hits_rowUpd32 (cw : CmdWord) :
    rowUpd32.hits cw = true ↔ opField cw = 0x6 ∧ rsvField cw = 0 := by
  rw [hits_iff_of_mem (by decide)]
  change opField cw = 0x6 ∧ _ ∧ crcField cw &&& 0#32 = 0#32 ∧ byteField cw &&& 0#8 = 0#8 ↔ _
  simp only [BitVec.and_zero, and_true]

theorem hits_rowRdt32 (cw : CmdWord) :
    rowRdt32.hits cw = true ↔ opField cw = 0x7 ∧ rsvField cw = 0 ∧ crcField cw = 0 :=
  hits_iff_of_readMask (by decide) rfl cw

/-! ## Decode and encode (R35, R37) -/

@[simp] theorem crcLowField_commandWord_setWidth (op : BitVec 4) (crc : BitVec 16) (byte : Byte) :
    crcLowField (commandWord op (crc.setWidth 32) byte) = crc :=
  (crcField_eq_setWidth_iff.mp (Laws.crcField_commandWord ..)).2

@[simp] theorem crcHighField_commandWord_setWidth (op : BitVec 4) (crc : BitVec 16) (byte : Byte) :
    crcHighField (commandWord op (crc.setWidth 32) byte) = 0 :=
  (crcField_eq_setWidth_iff.mp (Laws.crcField_commandWord ..)).1

/-- The encoded command meets what its row asks of the fields; the rows tried before it ask another operation code. -/
theorem decode_encode (i : Instr) : decode (encode i) = .ok i := by
  cases i <;>
    simp [decode, encode, hits_rowBld16, hits_rowUpd16, hits_rowRdt16, hits_rowBld32, hits_rowUpd32, hits_rowRdt32]

/-- Each pattern fixes to 0 every bit its command has no operand for. -/
theorem encode_of_decode {cw : CmdWord} {i : Instr} (h : decode cw = .ok i) : encode i = cw := by
  unfold decode at h
  split_ifs at h with hbld16 hupd16 hrdt16 hbld32 hupd32 hrdt32 <;> cases h
  · exact commandWord_eq_iff.mpr ((hits_rowBld16 cw).mp hbld16)
  · obtain ⟨hop, hrsv, hhigh⟩ := (hits_rowUpd16 cw).mp hupd16
    exact commandWord_eq_iff.mpr ⟨hop, hrsv, crcField_eq_setWidth_iff.mpr ⟨hhigh, rfl⟩, rfl⟩
  · obtain ⟨hop, hrsv, hcrc⟩ := (hits_rowRdt16 cw).mp hrdt16
    exact commandWord_eq_iff.mpr ⟨hop, hrsv, hcrc, rfl⟩
  · exact commandWord_eq_iff.mpr ((hits_rowBld32 cw).mp hbld32)
  · obtain ⟨hop, hrsv⟩ := (hits_rowUpd32 cw).mp hupd32
    exact commandWord_eq_iff.mpr ⟨hop, hrsv, rfl, rfl⟩
  · obtain ⟨hop, hrsv, hcrc⟩ := (hits_rowRdt32 cw).mp hrdt32
    exact commandWord_eq_iff.mpr ⟨hop, hrsv, hcrc, rfl⟩

theorem decode_eq_ok_iff {cw : CmdWord} {i : Instr} : decode cw = .ok i ↔ encode i = cw :=
  ⟨encode_of_decode, fun h => h ▸ decode_encode i⟩

/-- Settles O13: the words that decode to a command are the encoded commands. -/
theorem decodeAndEncodeAreInverse : Obligations.DecodeAndEncodeAreInverse :=
  ⟨fun _ _ => decode_eq_ok_iff.mpr rfl, fun _ _ => decode_eq_ok_iff.mp⟩

/-! ## Illegal words (R33, R36) -/

theorem step_of_decode_error {s : State} {cw : CmdWord} {rest : List CmdWord} {why : Illegal}
    (hcmds : s.commands = cw :: rest) (hdec : decode cw = .error why) :
    step s = .next (answered { s with commands := rest } .errIllegal 0) := by
  simp only [step, Laws.takeCommand_cons hcmds, hdec]
  exact congrArg Host.Outcome.next (raiseFault_eq_answered _ _)

theorem decode_error_iff_no_hit (cw : CmdWord) :
    (∃ why, decode cw = .error why) ↔ ∀ r ∈ opcodeTable, r.hits cw = false := by
  simp only [opcodeTable, List.forall_mem_cons]
  unfold decode
  split_ifs <;> simp [*]

/-- Every operation code selects a command or is reserved (R33). -/
theorem op_assigned_or_reserved (op : BitVec 4) :
    (op = 0x1 ∨ op = 0x2 ∨ op = 0x3 ∨ op = 0x5 ∨ op = 0x6 ∨ op = 0x7) ∨ (op = 0x0 ∨ op = 0x4 ∨ 0x8 ≤ op.toNat) := by
  revert op
  decide

theorem op_not_assigned_of_reserved {op : BitVec 4} (h : op = 0x0 ∨ op = 0x4 ∨ 0x8 ≤ op.toNat) :
    op ≠ 0x1 ∧ op ≠ 0x2 ∧ op ≠ 0x3 ∧ op ≠ 0x5 ∧ op ≠ 0x6 ∧ op ≠ 0x7 := by
  revert op
  decide

/-- R36's conditions, each on the fields of the word. -/
theorem decode_error_iff_fields (cw : CmdWord) :
    (∃ why, decode cw = .error why) ↔
      (opField cw = 0x0 ∨ opField cw = 0x4 ∨ 0x8 ≤ (opField cw).toNat)
      ∨ rsvField cw ≠ 0
      ∨ ((opField cw = 0x1 ∨ opField cw = 0x5) ∧ ¬(crcField cw = 0 ∧ byteField cw = 0))
      ∨ ((opField cw = 0x3 ∨ opField cw = 0x7) ∧ crcField cw ≠ 0)
      ∨ (opField cw = 0x2 ∧ crcHighField cw ≠ 0) := by
  rw [decode_error_iff_no_hit]
  simp only [opcodeTable, List.forall_mem_cons, ← Bool.not_eq_true, hits_rowBld16, hits_rowUpd16,
    hits_rowRdt16, hits_rowBld32, hits_rowUpd32, hits_rowRdt32]
  obtain hassigned | hreserved := op_assigned_or_reserved (opField cw)
  · obtain hop | hop | hop | hop | hop | hop := hassigned
    all_goals
      rw [hop]
      simp [imp_iff_not_or]
  · obtain ⟨h1, h2, h3, h5, h6, h7⟩ := op_not_assigned_of_reserved hreserved
    refine iff_of_true ?_ (.inl hreserved)
    exact ⟨mt And.left h1, mt And.left h2, mt And.left h3, mt And.left h5, mt And.left h6, mt And.left h7, nofun⟩

/-- Settles O16: a word the decoder refuses matches no row, and by its operation code that is one of R36's conditions. -/
theorem decoderRefusesExactlyIllegalWords : Obligations.DecoderRefusesExactlyIllegalWords := by
  refine ⟨fun _ _ _ _ => step_of_decode_error, decode_error_iff_no_hit, fun cw => ?_⟩
  rw [decode_error_iff_fields, ← operandBits_eq_zero_iff]
  rfl

theorem decode_error_of_reserved_op {cw : CmdWord}
    (h : opField cw = 0x0 ∨ opField cw = 0x4 ∨ 0x8 ≤ (opField cw).toNat) : ∃ why, decode cw = .error why :=
  (decode_error_iff_fields cw).mpr (.inl h)

/-- Settles O17: a legal word is an encoded command, whose operation code is that of its row. -/
theorem operationCodeSelectsCommand : Obligations.OperationCodeSelectsCommand := by
  refine ⟨fun cw i h => ?_, fun _ => decode_error_of_reserved_op, decode_error_of_reserved_op (by decide),
    decode_error_of_reserved_op (by decide)⟩
  rw [← encode_of_decode h]
  cases i <;> simp [encode, isCrc32, isCrc16]

end Sys2Proof.Proofs
end

section
/-! The table builders (40_table_builder.md R42 to R47): what a build writes, that a rebuild writes nothing new, and what any
command, step or run does to the two halves of the block. -/

namespace Sys2Proof.Proofs

open Sys2Proof.Machine Sys2Proof.Safety

/-! ## The build commands (R42, R43, R45) -/

theorem exec_bld16 (s : State) : exec .bld16 s = .next (respond .ok 0 (setBuilt16 (writeT16 entry16 s))) := rfl

theorem exec_bld32 (s : State) : exec .bld32 s = .next (respond .ok 0 (setBuilt32 (writeT32 entry32 s))) := rfl

/-- A fill with the entries a built table already holds: both memories are canonical and read alike. -/
theorem writeAll_eq_self_of_built {w : Nat} {m : Memory w} {built : Bool} {entry : Byte → BitVec w}
    (hinv : HalfInv m built entry) (hbuilt : built = true) : m.writeAll entry = m :=
  Laws.Memory.ext_of_wf (Laws.Memory.writeAll_wf entry hinv.wf) hinv.wf fun i =>
    (Laws.Memory.read_writeAll entry m i).trans (hinv.holds hbuilt i).symm

theorem sameBlock_respond (st : Status) (v : BitVec 32) (s : State) : SameBlock s (respond st v s) :=
  ⟨⟨Laws.State.respond_t16 st v s, Laws.State.respond_built16 st v s⟩,
    Laws.State.respond_t32 st v s, Laws.State.respond_built32 st v s⟩

theorem sameBlock_rebuild16 {s : State} (hinv : HalfInv s.t16 s.built16 entry16) (hbuilt : s.built16 = true) :
    SameBlock s (respond .ok 0 (setBuilt16 (writeT16 entry16 s))) :=
  ⟨⟨writeAll_eq_self_of_built hinv hbuilt, hbuilt.symm⟩, rfl, rfl⟩

theorem sameBlock_rebuild32 {s : State} (hinv : HalfInv s.t32 s.built32 entry32) (hbuilt : s.built32 = true) :
    SameBlock s (respond .ok 0 (setBuilt32 (writeT32 entry32 s))) :=
  ⟨⟨rfl, rfl⟩, writeAll_eq_self_of_built hinv hbuilt, hbuilt.symm⟩

/-- Settles O21: the fill makes every entry read its value, and on a built table it is the identity. -/
theorem bld16BuildsTable : Obligations.Bld16BuildsTable := by
  refine ⟨by decide, fun s => ⟨_, exec_bld16 s, ?_⟩, by decide, by decide, by decide, by decide⟩
  exact ⟨by simp, by simp, by simp [SameHalf32], by simp, by simp, sameBlock_rebuild16⟩

/-- Settles O22, as O21. -/
theorem bld32BuildsTable : Obligations.Bld32BuildsTable := by
  refine ⟨by decide, fun s => ⟨_, exec_bld32 s, ?_⟩, by decide, by decide, by decide, by decide⟩
  exact ⟨by simp, by simp, by simp [SameHalf16], by simp, by simp, sameBlock_rebuild32⟩

/-- Settles O23: a fill of a canonical memory depends on the entries alone, and the second of two builds is a rebuild. -/
theorem buildsAreIdenticalAndIdempotent : Obligations.BuildsAreIdenticalAndIdempotent := by
  refine ⟨fun s u hs hu => ?_, fun s u hs hu => ?_, fun s hs => ?_, fun s hs => ?_⟩
  · have htable : u.t16.writeAll entry16 = s.t16.writeAll entry16 := Laws.Memory.writeAll_eq_of_wf entry16 hu.1 hs.1
    exact ⟨_, _, exec_bld16 s, exec_bld16 u, by simp [htable], by simp, by simp, by simp⟩
  · have htable : u.t32.writeAll entry32 = s.t32.writeAll entry32 := Laws.Memory.writeAll_eq_of_wf entry32 hu.2 hs.2
    exact ⟨_, _, exec_bld32 s, exec_bld32 u, by simp [htable], by simp, by simp, by simp⟩
  · exact ⟨_, _, exec_bld16 s, exec_bld16 _, sameBlock_rebuild16 (Laws.halfInv_writeAll hs.1 entry16) rfl⟩
  · exact ⟨_, _, exec_bld32 s, exec_bld32 _, sameBlock_rebuild32 (Laws.halfInv_writeAll hs.2 entry32) rfl⟩

/-! ## One step on the two halves -/

/-- What a transition may do to one half of the block: its build fills the table and sets the flag, anything else leaves both
as they were. -/
structure HalfStep {w : Nat} (entry : Byte → BitVec w) (building : Prop)
    (m m' : Memory w) (built built' : Bool) : Prop where
  build : building → m' = m.writeAll entry ∧ built' = true
  keep : ¬building → m' = m ∧ built' = built

section halfStep

variable {w : Nat} {entry : Byte → BitVec w} {building : Prop} {m m' : Memory w} {built built' : Bool}

theorem HalfStep.of_build (h : building) : HalfStep entry building m (m.writeAll entry) built true :=
  ⟨fun _ => ⟨rfl, rfl⟩, fun hn => absurd h hn⟩

theorem HalfStep.of_keep (h : ¬building) : HalfStep entry building m m built built :=
  ⟨fun hb => absurd hb h, fun _ => ⟨rfl, rfl⟩⟩

theorem HalfStep.read_of_build (h : HalfStep entry building m m' built built') (hb : building) (i : Byte) :
    m'.read i = some (entry i) := by
  rw [(h.build hb).1, Laws.Memory.read_writeAll]

/-- A built half keeps its table and its flag: the one transition that writes it is a rebuild. -/
theorem HalfStep.keeps_built (h : HalfStep entry building m m' built built') (hinv : HalfInv m built entry)
    (hbuilt : built = true) : m' = m ∧ built' = true := by
  by_cases hb : building
  · obtain ⟨hm, hflag⟩ := h.build hb
    exact ⟨hm.trans (writeAll_eq_self_of_built hinv hbuilt), hflag⟩
  · obtain ⟨hm, hflag⟩ := h.keep hb
    exact ⟨hm, hflag.trans hbuilt⟩

end halfStep

/-- What a transition may do to the block, given when it is a build of each variant. -/
structure BlockStep (building16 building32 : Prop) (s t : State) : Prop where
  half16 : HalfStep entry16 building16 s.t16 t.t16 s.built16 t.built16
  half32 : HalfStep entry32 building32 s.t32 t.t32 s.built32 t.built32

theorem BlockStep.of_sameBlock {building16 building32 : Prop} {s t : State} (h16 : ¬building16) (h32 : ¬building32)
    (h : SameBlock s t) : BlockStep building16 building32 s t :=
  ⟨⟨fun hb => absurd hb h16, fun _ => h.1⟩, ⟨fun hb => absurd hb h32, fun _ => h.2⟩⟩

theorem exec_blockStep {i : Instr} {s t : State} (h : exec i s = .next t) :
    BlockStep (i = .bld16) (i = .bld32) s t := by
  obtain ⟨rfl, rfl⟩ | ⟨rfl, rfl⟩ | ⟨hi, -, v, rfl⟩ | ⟨hi, -, rfl⟩ := Laws.exec_next h
  case inl => exact ⟨.of_build rfl, .of_keep nofun⟩
  case inr.inl => exact ⟨.of_keep nofun, .of_build rfl⟩
  all_goals
    have hother : ¬i = .bld16 ∧ ¬i = .bld32 := by constructor <;> rintro rfl <;> cases hi
    exact .of_sameBlock hother.1 hother.2 (sameBlock_respond ..)

theorem head?_eq_encode_iff {s : State} {cw : CmdWord} {rest : List CmdWord} (h : s.commands = cw :: rest) (i : Instr) :
    s.commands.head? = some (encode i) ↔ decode cw = .ok i := by
  rw [h, List.head?_cons, Option.some_inj, decode_eq_ok_iff, eq_comm]

/-- An idle step and an illegal word leave the block as it is; a legal word does what its command does. -/
theorem step_blockStep {s t : State} (h : step s = .next t) :
    BlockStep (s.commands.head? = some (encode .bld16)) (s.commands.head? = some (encode .bld32)) s t := by
  obtain ⟨hnil, rfl⟩ | ⟨cw, rest, hcons, ⟨why, hdec, rfl⟩ | ⟨i, hdec, hexec⟩⟩ := Laws.step_next h
  · exact .of_sameBlock (by simp [hnil]) (by simp [hnil]) ⟨⟨rfl, rfl⟩, rfl, rfl⟩
  · simp only [head?_eq_encode_iff hcons, hdec]
    exact .of_sameBlock nofun nofun (sameBlock_respond ..)
  · obtain ⟨h16, h32⟩ := exec_blockStep hexec
    simp only [head?_eq_encode_iff hcons, hdec, Except.ok.injEq]
    exact ⟨h16, h32⟩

/-! ## Runs (R47) -/

/-- For the half that `table` and `flag` read of a state. -/
theorem run_keeps_built {w : Nat} {entry : Byte → BitVec w} {table : State → Memory w} {flag : State → Bool}
    (hhalf : ∀ {u v}, step u = .next v → ∃ building, HalfStep entry building (table u) (table v) (flag u) (flag v))
    {k : Nat} {s t : State} (hinv : HalfInv (table s) (flag s) entry) (hbuilt : flag s = true) (hrun : RunsTo k s t) :
    table t = table s ∧ flag t = true := by
  refine Laws.run_induct (P := fun u => table u = table s ∧ flag u = true) ?_ ⟨rfl, hbuilt⟩ hrun
  rintro u v ⟨htable, hflag⟩ hstep
  have hinv_u : HalfInv (table u) (flag u) entry := by rwa [htable, hflag, ← hbuilt]
  obtain ⟨_, h⟩ := hhalf hstep
  obtain ⟨htable', hflag'⟩ := h.keeps_built hinv_u hflag
  exact ⟨htable'.trans htable, hflag'⟩

/-- Settles O5: a built table is kept along the run, and one step writes a table only when its word is the build's. -/
theorem builtTableNeverChanges : Obligations.BuiltTableNeverChanges := by
  refine ⟨fun k s t hinv hrun => ⟨fun hbuilt => ?_, fun hbuilt => ?_⟩, fun s t hstep => ?_⟩
  · obtain ⟨htable, hflag⟩ :=
      run_keeps_built (fun h => ⟨_, (step_blockStep h).half16⟩) hinv.half16 hbuilt hrun
    exact ⟨hflag, htable, fun i => htable ▸ hinv.half16.holds hbuilt i⟩
  · obtain ⟨htable, hflag⟩ :=
      run_keeps_built (fun h => ⟨_, (step_blockStep h).half32⟩) hinv.half32 hbuilt hrun
    exact ⟨hflag, htable, fun i => htable ▸ hinv.half32.holds hbuilt i⟩
  · have hencode16 : encode .bld16 = 0x100000000000 := bld16BuildsTable.1
    have hencode32 : encode .bld32 = 0x500000000000 := bld32BuildsTable.1
    obtain ⟨h16, h32⟩ := hencode16 ▸ hencode32 ▸ step_blockStep hstep
    exact ⟨fun hn => (h16.keep hn).1, h16.read_of_build, fun hn => (h32.keep hn).1, h32.read_of_build⟩

end Sys2Proof.Proofs
end

section
/-! The incremental updaters (41_updater.md R50 to R53): what one update computes, byte by byte, and what `UPD16` and `UPD32`
answer. -/

namespace Sys2Proof.Proofs

open Sys2Proof.Machine Sys2Proof.Safety

/-! ## The update function, at every width (R50, R51) -/

section update

variable {w : Nat} (T : Byte → BitVec w) (crc : BitVec w) (b : Byte)

/-- From 8 bits on, masking with `0xFF` and cutting to 8 bits both leave the low byte. -/
theorem updIndex_eq_lowByte_xor (hw : 8 ≤ w) : updIndex crc b = crc.setWidth 8 ^^^ b := by
  have hmask : (0xFF : Byte) = BitVec.allOnes 8 := rfl
  simp only [updIndex, BitVec.setWidth_and, BitVec.setWidth_xor, BitVec.setWidth_setWidth_of_le _ hw,
    BitVec.setWidth_eq, hmask, BitVec.and_allOnes]

theorem upd_eq_shift_xor_entry (hw : 8 ≤ w) : upd T crc b = (crc >>> 8) ^^^ T (crc.setWidth 8 ^^^ b) := by
  rw [upd, updIndex_eq_lowByte_xor crc b hw, updCombine]

/-- The shift by 8 leaves 0 in the top byte, at `start`, so that the entry's stands there alone. -/
theorem upd_topByte {start : Nat} (hw : w = start + 8) :
    (upd T crc b).extractLsb' start 8 = (T (crc.setWidth 8 ^^^ b)).extractLsb' start 8 := by
  have hshift : (crc >>> 8).extractLsb' start 8 = 0#8 := by
    ext k hk
    simp [BitVec.getLsbD_of_ge crc (8 + (start + k)) (by omega)]
  rw [upd_eq_shift_xor_entry T crc b (by omega), BitVec.extractLsb'_xor, hshift, BitVec.zero_xor]

/-- The bytes above the lowest move down by one. -/
theorem upd_lowBytes (hw : 8 ≤ w) (len : Nat) :
    (upd T crc b).extractLsb' 0 len = crc.extractLsb' 8 len ^^^ (T (crc.setWidth 8 ^^^ b)).extractLsb' 0 len := by
  have hshift : (crc >>> 8).extractLsb' 0 len = crc.extractLsb' 8 len := by
    ext k hk
    simp
  rw [upd_eq_shift_xor_entry T crc b hw, BitVec.extractLsb'_xor, hshift]

/-- A byte equal to the low byte of the running value selects the entry at index 0. -/
theorem upd_lowByte_of_entry_zero (hw : 8 ≤ w) (h0 : T 0#8 = 0#w) : upd T crc (crc.setWidth 8) = crc >>> 8 := by
  rw [upd_eq_shift_xor_entry T crc _ hw, BitVec.xor_self, h0, BitVec.xor_zero]

end update

/-- Settles O27: at each width the index is the low byte XOR the byte, and the shift moves the upper bytes down. -/
theorem updateFunctionsByBytes : Obligations.UpdateFunctionsByBytes := by
  refine ⟨fun T crc b => ⟨rfl, ?_, ?_, ?_⟩, fun T crc b => ⟨rfl, ?_, ?_, ?_⟩,
    by decide, by decide, by decide, by decide⟩
  · exact updIndex_eq_lowByte_xor crc b (by decide)
  · exact upd_topByte T crc b rfl
  · exact upd_lowBytes T crc b (by decide) 8
  · exact updIndex_eq_lowByte_xor crc b (by decide)
  · exact upd_topByte T crc b rfl
  · exact upd_lowBytes T crc b (by decide) 24

/-! ## The words of the two commands (R34, R35) -/

/-- The zero-extended operand is the 16 zero bits of the encoding before the 16 operand bits. -/
theorem encode_upd16 (crc : BitVec 16) (b : Byte) :
    encode (.upd16 crc b) = (0x2 : BitVec 4) ++ (0x0 : BitVec 4) ++ (0x0000 : BitVec 16) ++ crc ++ b := by
  have hzext : crc.setWidth 32 = 0#16 ++ crc := BitVec.setWidth_eq_append (by decide)
  rw [encode, commandWord, hzext, BitVec.append_assoc']
  rfl

theorem hits_rowUpd16_iff_decode (cw : CmdWord) :
    rowUpd16.hits cw = true ↔ ∃ crc b, decode cw = .ok (.upd16 crc b) := by
  simp only [hits_rowUpd16, decode_eq_ok_iff, encode, commandWord_eq_iff, crcField_eq_setWidth_iff]
  exact ⟨fun ⟨hop, hrsv, hhigh⟩ => ⟨_, _, hop, hrsv, ⟨hhigh, rfl⟩, rfl⟩,
    fun ⟨_, _, hop, hrsv, ⟨hhigh, _⟩, _⟩ => ⟨hop, hrsv, hhigh⟩⟩

theorem hits_rowUpd32_iff_decode (cw : CmdWord) :
    rowUpd32.hits cw = true ↔ ∃ crc b, decode cw = .ok (.upd32 crc b) := by
  simp only [hits_rowUpd32, decode_eq_ok_iff, encode, commandWord_eq_iff]
  exact ⟨fun ⟨hop, hrsv⟩ => ⟨_, _, hop, hrsv, rfl, rfl⟩, fun ⟨_, _, hop, hrsv, _, _⟩ => ⟨hop, hrsv⟩⟩

/-! ## What the two commands answer (R52, R53) -/

/-- In any state: of the block only the flag and the one entry are read. -/
theorem exec_upd16_of_read {s : State} {crc e : BitVec 16} {b : Byte} (hbuilt : s.built16 = true)
    (hread : s.t16.read (crc.setWidth 8 ^^^ b) = some e) :
    exec (.upd16 crc b) s = .next (answered s .ok (((crc >>> 8) ^^^ e).setWidth 32)) := by
  rw [← updIndex_eq_lowByte_xor crc b (by decide)] at hread
  rw [exec, execUpd16, hbuilt, hread]
  exact Laws.answerFromTable_some _ s

theorem exec_upd32_of_read {s : State} {crc e : BitVec 32} {b : Byte} (hbuilt : s.built32 = true)
    (hread : s.t32.read (crc.setWidth 8 ^^^ b) = some e) :
    exec (.upd32 crc b) s = .next (answered s .ok ((crc >>> 8) ^^^ e)) := by
  rw [← updIndex_eq_lowByte_xor crc b (by decide)] at hread
  rw [exec, execUpd32, hbuilt, hread]
  exact Laws.answerFromTable_some _ s

theorem exec_upd16_of_halfInv {s : State} (hinv : HalfInv s.t16 s.built16 entry16) (hbuilt : s.built16 = true)
    (crc : BitVec 16) (b : Byte) :
    exec (.upd16 crc b) s = .next (answered s .ok ((upd16 entry16 crc b).setWidth 32)) := by
  rw [exec_upd16_of_read hbuilt (hinv.holds hbuilt _), upd16, upd_eq_shift_xor_entry _ _ _ (by decide)]

theorem exec_upd32_of_halfInv {s : State} (hinv : HalfInv s.t32 s.built32 entry32) (hbuilt : s.built32 = true)
    (crc : BitVec 32) (b : Byte) :
    exec (.upd32 crc b) s = .next (answered s .ok (upd32 entry32 crc b)) := by
  rw [exec_upd32_of_read hbuilt (hinv.holds hbuilt _), upd32, upd_eq_shift_xor_entry _ _ _ (by decide)]

/-- The answer depends on the flag and the value looked up, never on the state it is appended to. -/
theorem answerFromTable_again {built : Bool} {value : Option (BitVec 32)} {s t : State}
    (h : answerFromTable built value s = .next t) :
    ∃ r : Response, t = answered s r.status r.value
      ∧ ∀ u, answerFromTable built value u = .next (answered u r.status r.value) := by
  obtain ⟨rfl, v, rfl, rfl⟩ | ⟨rfl, rfl⟩ := Laws.answerFromTable_next h
  · exact ⟨⟨.ok, v⟩, respond_eq_answered .ok v s, Laws.answerFromTable_some v⟩
  · exact ⟨⟨.errNotBuilt, 0⟩, raiseFault_eq_answered .errNotBuilt s, Laws.answerFromTable_notBuilt value⟩

/-- An update or a read finds after itself the flag and the entry it found before. -/
theorem exec_again_of_not_isBuild {i : Instr} {s t : State} (hi : isBuild i = false) (h : exec i s = .next t) :
    ∃ r, t.responses = s.responses ++ [r] ∧ exec i t = .next (answered t r.status r.value) := by
  cases i with
  | bld16 | bld32 => cases hi
  | upd16 _ _ | rdt16 _ | upd32 _ _ | rdt32 _ =>
    obtain ⟨r, rfl, hagain⟩ := answerFromTable_again h
    exact ⟨r, rfl, hagain _⟩

/-- Settles O28: the word by its fields, the answer by the flag and the one entry that the command reads. -/
theorem upd16AnswersNextRunningValue : Obligations.Upd16AnswersNextRunningValue := by
  refine ⟨encode_upd16, fun cw => ?_, fun s crc b hbuilt => exec_of_not_tableReady hbuilt,
    fun s crc b e => exec_upd16_of_read, fun s crc b hinv hbuilt => exec_upd16_of_halfInv hinv hbuilt crc b,
    fun s crc b t => exec_again_of_not_isBuild rfl,
    fun crc => upd_lowByte_of_entry_zero entry16 crc (by decide) (by decide), by decide, by decide, by decide⟩
  rw [← hits_rowUpd16_iff_decode]
  exact beq_iff_eq.symm

/-- Settles O29, as O28: the operand fills the crc field. -/
theorem upd32AnswersNextRunningValue : Obligations.Upd32AnswersNextRunningValue := by
  refine ⟨fun crc b => rfl, fun cw => ?_, fun s crc b hbuilt => exec_of_not_tableReady hbuilt,
    fun s crc b e => exec_upd32_of_read, fun s crc b hinv hbuilt => exec_upd32_of_halfInv hinv hbuilt crc b,
    fun crc => upd_lowByte_of_entry_zero entry32 crc (by decide) (by decide),
    by decide, by decide, by decide, by decide⟩
  rw [← hits_rowUpd32_iff_decode]
  exact beq_iff_eq.symm

end Sys2Proof.Proofs
end

section
/-! Reading a table back (42_table_read.md R60 to R62): what `RDT16` and `RDT32` answer, and that a read and an update agree
on the entry. -/

namespace Sys2Proof.Proofs

open Sys2Proof.Machine Sys2Proof.Safety

/-! ## The words of the two commands (R34, R35) -/

theorem hits_rowRdt16_iff_decode (cw : CmdWord) :
    rowRdt16.hits cw = true ↔ ∃ idx, decode cw = .ok (.rdt16 idx) := by
  simp only [hits_rowRdt16, decode_eq_ok_iff, encode, commandWord_eq_iff]
  exact ⟨fun ⟨hop, hrsv, hcrc⟩ => ⟨_, hop, hrsv, hcrc, rfl⟩, fun ⟨_, hop, hrsv, hcrc, _⟩ => ⟨hop, hrsv, hcrc⟩⟩

theorem hits_rowRdt32_iff_decode (cw : CmdWord) :
    rowRdt32.hits cw = true ↔ ∃ idx, decode cw = .ok (.rdt32 idx) := by
  simp only [hits_rowRdt32, decode_eq_ok_iff, encode, commandWord_eq_iff]
  exact ⟨fun ⟨hop, hrsv, hcrc⟩ => ⟨_, hop, hrsv, hcrc, rfl⟩, fun ⟨_, hop, hrsv, hcrc, _⟩ => ⟨hop, hrsv, hcrc⟩⟩

/-! ## What the two commands answer (R60, R61) -/

/-- A built table's answer tells the value looked up. -/
theorem answerFromTable_built_eq_ok_iff {value : Option (BitVec 32)} {v : BitVec 32} {s : State} :
    answerFromTable true value s = .next (answered s .ok v) ↔ value = some v := by
  constructor
  · intro h
    obtain ⟨-, u, rfl, hu⟩ | ⟨hbuilt, -⟩ := Laws.answerFromTable_next h
    · have hresponses : s.responses ++ [⟨.ok, v⟩] = s.responses ++ [⟨.ok, u⟩] := congrArg State.responses hu
      simpa [eq_comm] using hresponses
    · cases hbuilt
  · rintro rfl
    exact Laws.answerFromTable_some v s

/-- The zero extension of a 16-bit entry into the response value loses nothing. -/
theorem value16_injective : Function.Injective value16 :=
  Function.LeftInverse.injective (g := BitVec.setWidth 16) fun e =>
    (BitVec.setWidth_setWidth_of_le e (by decide)).trans e.setWidth_eq

/-- In any state: of the block only the flag and the one entry are read, and the answer tells the entry. -/
theorem exec_rdt16_eq_ok_iff {s : State} (hbuilt : s.built16 = true) (idx : Byte) (e : BitVec 16) :
    exec (.rdt16 idx) s = .next (answered s .ok (e.setWidth 32)) ↔ s.t16.read idx = some e := by
  rw [exec, execRdt16, hbuilt, answerFromTable_built_eq_ok_iff]
  exact (Option.map_injective value16_injective).eq_iff (b := some e)

theorem exec_rdt32_eq_ok_iff {s : State} (hbuilt : s.built32 = true) (idx : Byte) (e : BitVec 32) :
    exec (.rdt32 idx) s = .next (answered s .ok e) ↔ s.t32.read idx = some e := by
  rw [exec, execRdt32, hbuilt, answerFromTable_built_eq_ok_iff]
  exact (Option.map_injective Function.injective_id).eq_iff (b := some e)

/-- Settles O32: the word by its fields, the answer by the flag and the entry, which every built table holds as defined. -/
theorem rdt16AnswersEntry : Obligations.Rdt16AnswersEntry := by
  refine ⟨fun idx => rfl, fun cw => ?_, fun s idx hbuilt => exec_of_not_tableReady hbuilt,
    fun s idx e hbuilt => (exec_rdt16_eq_ok_iff hbuilt idx e).mpr,
    fun s idx hinv hbuilt => (exec_rdt16_eq_ok_iff hbuilt idx _).mpr (hinv.holds hbuilt idx),
    fun s idx t => exec_again_of_not_isBuild rfl, by decide⟩
  rw [← hits_rowRdt16_iff_decode]
  exact beq_iff_eq.symm

/-- Settles O33, as O32: the entry fills the response value. -/
theorem rdt32AnswersEntry : Obligations.Rdt32AnswersEntry := by
  refine ⟨fun idx => rfl, fun cw => ?_, fun s idx hbuilt => exec_of_not_tableReady hbuilt,
    fun s idx e hbuilt => (exec_rdt32_eq_ok_iff hbuilt idx e).mpr,
    fun s idx hinv hbuilt => (exec_rdt32_eq_ok_iff hbuilt idx _).mpr (hinv.holds hbuilt idx),
    fun s idx t => exec_again_of_not_isBuild rfl, by decide⟩
  rw [← hits_rowRdt32_iff_decode]
  exact beq_iff_eq.symm

/-! ## A read and an update (R62) -/

/-- From a running value of 0 an update reads the entry at its byte. -/
theorem updIndex_zero {w : Nat} (hw : 8 ≤ w) (b : Byte) : updIndex 0#w b = b := by
  rw [updIndex_eq_lowByte_xor _ b hw, BitVec.setWidth_zero, BitVec.zero_xor]

/-- Shifted right, 0 stays 0, so that the entry stands alone. -/
theorem updCombine_zero {w : Nat} (entry : BitVec w) : updCombine 0#w entry = entry := by
  rw [updCombine, BitVec.zero_ushiftRight, BitVec.zero_xor]

theorem exec_upd16_zero (s : State) (idx : Byte) : exec (.upd16 0 idx) s = exec (.rdt16 idx) s := by
  simp only [exec, execUpd16, execRdt16, BitVec.ofNat_eq_ofNat, updIndex_zero (w := 16) (by decide), updCombine_zero]

theorem exec_upd32_zero (s : State) (idx : Byte) : exec (.upd32 0 idx) s = exec (.rdt32 idx) s := by
  simp only [exec, execUpd32, execRdt32, BitVec.ofNat_eq_ofNat, updIndex_zero (w := 32) (by decide), updCombine_zero]

/-- Settles O34: the read's answer tells the entry, which is the one the update reads. -/
theorem readAgreesWithUpdate : Obligations.ReadAgreesWithUpdate := by
  refine ⟨fun s crc b e hbuilt hread => ?_, fun s crc b e hbuilt hread => ?_, exec_upd16_zero, exec_upd32_zero⟩
  · exact exec_upd16_of_read hbuilt ((exec_rdt16_eq_ok_iff hbuilt _ e).mp hread)
  · exact exec_upd32_of_read hbuilt ((exec_rdt32_eq_ok_iff hbuilt _ e).mp hread)

end Sys2Proof.Proofs
end

section
/-! The generic form of the checksums (43_session_protocol.md R74): the 16-bit entries by the shifting copy are those of the
seeded form (40_table_builder.md section 5), and finalization is the XOR with the record's constant. -/

namespace Sys2Proof.Proofs

open Sys2Proof.Machine Sys2Proof.Safety

/-- A map that carries each step of `f` to one of `g` carries their iterations alike. -/
theorem iterate_semiconj {α β : Type} {f : α → α} {g : β → β} {φ : α → β} (h : ∀ a, g (φ a) = φ (f a))
    (k : Nat) (a : α) :
    iterate g k (φ a) = φ (iterate f k a) := by
  induction k generalizing a with
  | zero => rfl
  | succ k ih => rw [iterate, h, ih, iterate]

section copyProcedure

variable {w : Nat} (poly : BitVec w)

/-- What the seeded procedure holds when the copying one is at (working value, copy): the bits of the byte still to come stand
in the copy, not yet in the working value. -/
def mergeCopy (wc : BitVec w × Byte) : BitVec w := wc.1 ^^^ wc.2.setWidth w

/-- Both procedures test the same bit, and the shift moves working value and copy alike. -/
theorem crcShift_mergeCopy (hw : 8 ≤ w) (wc : BitVec w × Byte) :
    crcShift poly (mergeCopy wc) = mergeCopy (copyShift poly wc) := by
  have hshift : mergeCopy wc >>> 1 = (wc.1 >>> 1) ^^^ (wc.2 >>> 1).setWidth w := by
    rw [mergeCopy, BitVec.ushiftRight_xor_distrib, BitVec.setWidth_ushiftRight hw]
  rw [crcShift, hshift, mergeCopy, mergeCopy, copyShift]
  split_ifs
  · dsimp only
    ac_rfl
  · rfl

theorem iterate_copyShift_snd (k : Nat) (wc : BitVec w × Byte) : (iterate (copyShift poly) k wc).2 = wc.2 >>> k := by
  induction k generalizing wc with
  | zero => exact (BitVec.ushiftRight_zero wc.2).symm
  | succ k ih => rw [iterate, ih, copyShift, ← BitVec.shiftRight_add, Nat.add_comm]

/-- After eight shifts the copy is used up, and the working value is what the seeded procedure holds. -/
theorem copyEntry_eq_seededEntry (hw : 8 ≤ w) (i : Byte) : copyEntry poly i = seededEntry poly i := by
  have hcopy : (iterate (copyShift poly) Config.nIter (0, i)).2 = 0#8 :=
    (iterate_copyShift_snd poly 8 (0, i)).trans (BitVec.ushiftRight_eq_zero (Nat.le_refl 8))
  have hstart : mergeCopy (0, i) = i.setWidth w := BitVec.zero_xor
  rw [seededEntry, ← hstart, iterate_semiconj (crcShift_mergeCopy poly hw), mergeCopy, hcopy, copyEntry,
    BitVec.setWidth_zero, BitVec.xor_zero]

end copyProcedure

theorem seededEntry_poly16 : seededEntry Config.poly16 = entry16 :=
  funext fun i => (copyEntry_eq_seededEntry Config.poly16 (by decide) i).symm

theorem crcOf_crc16Params (bs : List Byte) : crcOf Config.crc16Params bs = crc16 bs := by
  change foldBytes (seededEntry Config.poly16) Config.init16 bs ^^^ 0#16 = finalize16 _
  rw [seededEntry_poly16, BitVec.xor_zero, finalize16]

theorem crcOf_crc32Params (bs : List Byte) : crcOf Config.crc32Params bs = crc32 bs :=
  BitVec.xor_allOnes

/-- Settles O48: the two entry procedures agree, XOR with 0 is the identity, and XOR with all ones is the complement. -/
theorem genericFormCoversBothVariants : Obligations.GenericFormCoversBothVariants :=
  ⟨rfl, rfl, congrFun seededEntry_poly16, fun bs => (crcOf_crc16Params bs).symm, fun bs => (crcOf_crc32Params bs).symm⟩

end Sys2Proof.Proofs
end

section
/-! The host's sessions (43_session_protocol.md R65 to R68, R73): what one call gives, what streaming a byte sequence makes of the
running values, and the checksums at the end. -/

namespace Sys2Proof.Proofs

open Sys2Proof.Machine Sys2Proof.Safety

/-! ## One call -/

/-- The word that the host issues is the one the next step takes and decodes. -/
theorem step_issueFirst_encode (i : Instr) (s : State) : step (issueFirst (encode i) s) = exec i s := by
  rw [step, Laws.takeCommand_cons (Laws.State.issueFirst_commands (encode i) s)]
  simp only [decode_encode]
  rfl

theorem callOk_of_exec {i : Instr} {s : State} {v : BitVec 32} (h : exec i s = .next (answered s .ok v)) :
    callOk i s = some (v, answered s .ok v) := by
  have hlast : (answered s .ok v).responses.getLast? = some ⟨.ok, v⟩ := List.getLast?_concat
  simp only [callOk, transact, step_issueFirst_encode, h, hlast, Option.map_some, if_true]

/-! ## The state with other responses -/

/-- All that a session changes of the state. -/
def withResponses (s : State) (rs : List Response) : State := { s with responses := rs }

theorem answered_eq_withResponses (s : State) (st : Status) (v : BitVec 32) :
    answered s st v = withResponses s (s.responses ++ [⟨st, v⟩]) := rfl

theorem withResponses_self (s : State) : withResponses s s.responses = s := rfl

theorem withResponses_withResponses (s : State) (rs qs : List Response) :
    withResponses (withResponses s rs) qs = withResponses s qs := rfl

theorem blockInv_withResponses {s : State} (h : BlockInv s) (rs : List Response) : BlockInv (withResponses s rs) :=
  ⟨h.half16, h.half32⟩

theorem sameBlock_withResponses (s : State) (rs : List Response) : SameBlock s (withResponses s rs) :=
  ⟨⟨rfl, rfl⟩, rfl, rfl⟩

/-! ## Streaming (R66) -/

/-- The running values after a byte sequence, with the pure entries in place of the tables. -/
def foldRunning (bs : List Byte) (r : Running) : Running :=
  { crc16 := r.crc16.map fun x => foldBytes entry16 x bs
    crc32 := r.crc32.map fun x => foldBytes entry32 x bs }

theorem foldRunning_nil (r : Running) : foldRunning [] r = r := by
  simp [foldRunning, foldBytes]

theorem foldRunning_cons (b : Byte) (bs : List Byte) (r : Running) :
    foldRunning (b :: bs) r = foldRunning bs (foldRunning [b] r) := by
  simp [foldRunning, foldBytes, Function.comp_def]

/-- The table of every active variant is built. -/
structure TablesBuilt (r : Running) (s : State) : Prop where
  built16 : r.crc16.isSome → s.built16 = true
  built32 : r.crc32.isSome → s.built32 = true

theorem tablesBuilt_foldRunning {r : Running} {s : State} (h : TablesBuilt r s) (bs : List Byte) (rs : List Response) :
    TablesBuilt (foldRunning bs r) (withResponses s rs) :=
  ⟨fun h16 => h.built16 (Option.isSome_map ▸ h16), fun h32 => h.built32 (Option.isSome_map ▸ h32)⟩

theorem advance16_of_halfInv {x : Option (BitVec 16)} {s : State} (hinv : HalfInv s.t16 s.built16 entry16)
    (hbuilt : x.isSome → s.built16 = true) (b : Byte) :
    ∃ rs, advance16 b x s = some (x.map fun crc => foldBytes entry16 crc [b], withResponses s rs) := by
  cases x with
  | none => exact ⟨s.responses, rfl⟩
  | some crc =>
    have hcall := callOk_of_exec (exec_upd16_of_halfInv hinv (hbuilt rfl) crc b)
    have hvalue : ((upd16 entry16 crc b).setWidth 32).setWidth 16 = upd16 entry16 crc b :=
      (BitVec.setWidth_setWidth_of_le _ (by decide)).trans (BitVec.setWidth_eq _)
    rw [advance16, hcall, Option.map_some, hvalue, answered_eq_withResponses]
    exact ⟨_, rfl⟩

theorem advance32_of_halfInv {x : Option (BitVec 32)} {s : State} (hinv : HalfInv s.t32 s.built32 entry32)
    (hbuilt : x.isSome → s.built32 = true) (b : Byte) :
    ∃ rs, advance32 b x s = some (x.map fun crc => foldBytes entry32 crc [b], withResponses s rs) := by
  cases x with
  | none => exact ⟨s.responses, rfl⟩
  | some crc =>
    have hcall := callOk_of_exec (exec_upd32_of_halfInv hinv (hbuilt rfl) crc b)
    rw [advance32, hcall, Option.map_some, answered_eq_withResponses]
    exact ⟨_, rfl⟩

theorem advance_of_blockInv {r : Running} {s : State} (hinv : BlockInv s) (hbuilt : TablesBuilt r s) (b : Byte) :
    ∃ rs, advance b r s = some (foldRunning [b] r, withResponses s rs) := by
  obtain ⟨rs, h16⟩ := advance16_of_halfInv hinv.half16 hbuilt.built16 b
  obtain ⟨qs, h32⟩ := advance32_of_halfInv (s := withResponses s rs) hinv.half32 hbuilt.built32 b
  refine ⟨qs, ?_⟩
  simp only [advance, h16, h32, Option.map_some, withResponses_withResponses, foldRunning]

theorem streamBytes_of_blockInv {r : Running} {s : State} (hinv : BlockInv s) (hbuilt : TablesBuilt r s) (bs : List Byte) :
    ∃ rs, streamBytes bs r s = some (foldRunning bs r, withResponses s rs) := by
  induction bs generalizing r s with
  | nil => exact ⟨s.responses, by rw [streamBytes, foldRunning_nil, withResponses_self]⟩
  | cons b bs ih =>
    obtain ⟨rs, hadvance⟩ := advance_of_blockInv hinv hbuilt b
    obtain ⟨qs, hrest⟩ := ih (blockInv_withResponses hinv rs) (tablesBuilt_foldRunning hbuilt [b] rs)
    refine ⟨qs, ?_⟩
    simp only [streamBytes, hadvance, hrest, foldRunning_cons b bs, withResponses_withResponses]

/-! ## Whole sessions (R65, R67, R68, R73) -/

theorem finishSession_foldRunning (v : Variants) (bs : List Byte) :
    finishSession (foldRunning bs (startSession v))
      = ⟨if v.crc16 then some (crc16 bs) else none, if v.crc32 then some (crc32 bs) else none⟩ := by
  simp [finishSession, foldRunning, startSession, crc16, crc32]

theorem tablesBuilt_startSession {v : Variants} {s : State} (h16 : v.crc16 = true → s.built16 = true)
    (h32 : v.crc32 = true → s.built32 = true) : TablesBuilt (startSession v) s :=
  ⟨fun h => h16 (by simpa [startSession] using h), fun h => h32 (by simpa [startSession] using h)⟩

theorem session_of_blockInv {v : Variants} {s : State} (hinv : BlockInv s) (h16 : v.crc16 = true → s.built16 = true)
    (h32 : v.crc32 = true → s.built32 = true) (bs : List Byte) :
    ∃ rs, session v bs s = some (finishSession (foldRunning bs (startSession v)), withResponses s rs) := by
  obtain ⟨rs, hstream⟩ := streamBytes_of_blockInv hinv (tablesBuilt_startSession h16 h32) bs
  refine ⟨rs, ?_⟩
  rw [session, hstream, Option.map_some]

/-- Settles O44: byte by byte the running values are the folds, and the state gains responses alone. -/
theorem sessionYieldsChecksums : Obligations.SessionYieldsChecksums := by
  refine ⟨fun x b bs => ⟨rfl, rfl⟩, fun x b bs => ⟨rfl, rfl⟩, fun bs => ⟨rfl, rfl⟩, fun v bs s hinv h16 h32 => ?_,
    by decide, by decide⟩
  obtain ⟨rs, hsession⟩ := session_of_blockInv hinv h16 h32 bs
  rw [finishSession_foldRunning] at hsession
  exact ⟨_, hsession, sameBlock_withResponses s rs, rfl⟩

theorem crc16_nil : crc16 [] = 0x0000 := rfl

theorem crc32_nil : crc32 [] = 0x00000000 := by decide

/-- In any state: with no byte to stream the host issues nothing, and finalizes the initial values. -/
theorem session_nil (v : Variants) (s : State) :
    session v [] s = some (finishSession (foldRunning [] (startSession v)), s) := by
  rw [session, streamBytes, Option.map_some, foldRunning_nil]

/-- Settles O47: the results are the checksums of the empty sequence, both 0. -/
theorem emptySessionYieldsZero : Obligations.EmptySessionYieldsZero := by
  refine ⟨crc16_nil, crc32_nil, fun v s => ?_⟩
  rw [session_nil, finishSession_foldRunning, crc16_nil, crc32_nil]

end Sys2Proof.Proofs
end

section
/-! Faults (60_exceptions.md R80, R82, R83, R86, R87): when a command succeeds, what raises each of the two faults, and that a
faulting command leaves nothing behind but its response. -/

namespace Sys2Proof.Proofs

open Sys2Proof.Machine Sys2Proof.Safety

/-! ## An illegal word (R82) -/

/-- Ties the encoder to R36's own list of conditions. -/
theorem wellFormedWord_encode (i : Instr) : wellFormedWord (encode i) = true := by
  cases i <;> simp [wellFormedWord, opAssigned, unusedBitsClear, encode]

theorem decode_error_of_not_wellFormedWord {cw : CmdWord} (h : wellFormedWord cw = false) :
    ∃ why, decode cw = .error why := by
  cases hdec : decode cw with
  | error why => exact ⟨why, rfl⟩
  | ok i =>
    have hwf : wellFormedWord cw = true := encode_of_decode hdec ▸ wellFormedWord_encode i
    cases hwf.symm.trans h

/-- Settles O10: a word that decodes is an encoded command and meets none of R36's conditions, so this one does not decode. -/
theorem illegalWordAnsweredErrIllegal : Obligations.IllegalWordAnsweredErrIllegal := by
  intro s cw rest hcmds hillegal
  obtain ⟨why, hdec⟩ := decode_error_of_not_wellFormedWord hillegal
  exact step_of_decode_error hcmds hdec

/-! ## A legal command with its table not built, and built (R83, R80) -/

/-- Settles O35: the flag is tested before the entry is looked at. -/
theorem unbuiltTableFaults : Obligations.UnbuiltTableFaults := fun _ _ => exec_of_not_tableReady

/-- Settles O36: a build always answers, and a built table holds the one entry that any other command reads. -/
theorem legalCommandWithTableSucceeds : Obligations.LegalCommandWithTableSucceeds := by
  intro i s hinv hready
  cases i with
  | bld16 => exact ⟨_, 0, exec_bld16 s, Laws.State.respond_responses ..⟩
  | bld32 => exact ⟨_, 0, exec_bld32 s, Laws.State.respond_responses ..⟩
  | upd16 crc byte => exact ⟨_, _, exec_upd16_of_halfInv hinv.half16 hready crc byte, rfl⟩
  | upd32 crc byte => exact ⟨_, _, exec_upd32_of_halfInv hinv.half32 hready crc byte, rfl⟩
  | rdt16 idx => exact ⟨_, _, (exec_rdt16_eq_ok_iff hready idx _).mpr (hinv.half16.holds hready idx), rfl⟩
  | rdt32 idx => exact ⟨_, _, (exec_rdt32_eq_ok_iff hready idx _).mpr (hinv.half32.holds hready idx), rfl⟩

/-! ## What a fault leaves behind (R86) -/

theorem lastStatus_respond (st : Status) (v : BitVec 32) (s : State) : lastStatus (respond st v s) = some st := by
  simp [lastStatus]

/-- A legal command has one fault to raise. -/
theorem exec_fault {i : Instr} {s t : State} (h : exec i s = .next t) (hfault : lastStatus t ≠ some .ok) :
    t = answered s .errNotBuilt 0 := by
  obtain ⟨-, rfl⟩ | ⟨-, rfl⟩ | ⟨-, -, v, rfl⟩ | ⟨-, -, rfl⟩ := Laws.exec_next h
  case inr.inr.inr => exact raiseFault_eq_answered .errNotBuilt s
  all_goals exact absurd (lastStatus_respond ..) hfault

/-- Both faults answer the value 0 and change nothing else. -/
theorem step_fault {s t : State} {cw : CmdWord} {rest : List CmdWord} (hcmds : s.commands = cw :: rest)
    (h : step s = .next t) (hfault : lastStatus t ≠ some .ok) :
    ∃ st, st ≠ .ok ∧ t = answered { s with commands := rest } st 0 := by
  obtain ⟨hnil, -⟩ | ⟨_, _, hcons, hstep⟩ := Laws.step_next h
  · cases hcmds.symm.trans hnil
  · obtain ⟨rfl, rfl⟩ := List.cons.inj (hcmds.symm.trans hcons)
    obtain ⟨why, -, rfl⟩ | ⟨i, -, hexec⟩ := hstep
    · exact ⟨.errIllegal, nofun, raiseFault_eq_answered ..⟩
    · exact ⟨.errNotBuilt, nofun, exec_fault hexec hfault⟩

/-! ## No step reads the responses given (R87) -/

/-- `u` with its first `n` responses, those given before a transition, replaced by `rs`. -/
def replaceHistory (n : Nat) (rs : List Response) (u : State) : State := withResponses u (rs ++ u.responses.drop n)

theorem replaceHistory_self (s : State) (rs : List Response) :
    replaceHistory s.responses.length rs s = withResponses s rs := by
  rw [replaceHistory, List.drop_length, List.append_nil]

theorem replaceHistory_respond (st : Status) (v : BitVec 32) (s : State) (rs : List Response) :
    replaceHistory s.responses.length rs (respond st v s) = respond st v (withResponses s rs) := by
  rw [replaceHistory, Laws.State.respond_responses, List.drop_left]
  rfl

theorem answerFromTable_withResponses (built : Bool) (value : Option (BitVec 32)) (s : State) (rs : List Response) :
    answerFromTable built value (withResponses s rs)
      = mapNext (replaceHistory s.responses.length rs) (answerFromTable built value s) := by
  cases built with
  | false => exact congrArg Host.Outcome.next (replaceHistory_respond .errNotBuilt 0 s rs).symm
  | true =>
    cases value with
    | none => rfl
    | some v => exact congrArg Host.Outcome.next (replaceHistory_respond .ok v s rs).symm

theorem exec_withResponses (i : Instr) (s : State) (rs : List Response) :
    exec i (withResponses s rs) = mapNext (replaceHistory s.responses.length rs) (exec i s) := by
  cases i with
  | bld16 => exact congrArg Host.Outcome.next (replaceHistory_respond .ok 0 (setBuilt16 (writeT16 entry16 s)) rs).symm
  | bld32 => exact congrArg Host.Outcome.next (replaceHistory_respond .ok 0 (setBuilt32 (writeT32 entry32 s)) rs).symm
  | upd16 _ _ | rdt16 _ | upd32 _ _ | rdt32 _ => exact answerFromTable_withResponses _ _ s rs

theorem step_withResponses (s : State) (rs : List Response) :
    step (withResponses s rs) = mapNext (replaceHistory s.responses.length rs) (step s) := by
  cases hcmds : s.commands with
  | nil =>
    have hcmds' : (withResponses s rs).commands = [] := hcmds
    rw [step, step, Laws.takeCommand_nil hcmds, Laws.takeCommand_nil hcmds']
    exact congrArg Host.Outcome.next (replaceHistory_self s rs).symm
  | cons cw rest =>
    have hcmds' : (withResponses s rs).commands = cw :: rest := hcmds
    rw [step, step, Laws.takeCommand_cons hcmds, Laws.takeCommand_cons hcmds']
    cases hdec : decode cw with
    | error why =>
      simp only [hdec]
      exact congrArg Host.Outcome.next (replaceHistory_respond .errIllegal 0 { s with commands := rest } rs).symm
    | ok i =>
      simp only [hdec]
      exact exec_withResponses i { s with commands := rest } rs

/-- Settles O38: the state after a fault differs from the one in which the command was never issued in its responses alone, which
no step reads. -/
theorem faultLeavesNoTrace : Obligations.FaultLeavesNoTrace := by
  intro s cw rest t hcmds hstep hfault
  obtain ⟨st, hst, rfl⟩ := step_fault hcmds hstep hfault
  exact ⟨st, hst, rfl, step_withResponses { s with commands := rest } _⟩

end Sys2Proof.Proofs
end

section
/-! Completeness of the step (70_reset_and_hazards.md R103): in every good state every command word gets one response and one next
state. -/

namespace Sys2Proof.Proofs

open Sys2Proof.Machine Sys2Proof.Safety

/-- In any state: whichever way a command ends, it gives one response and takes no further word. -/
theorem exec_takes_no_word_and_appends_response {i : Instr} {s t : State} (h : exec i s = .next t) :
    t.commands = s.commands ∧ ∃ r, t.responses = s.responses ++ [r] := by
  obtain ⟨-, rfl⟩ | ⟨-, rfl⟩ | ⟨-, -, v, rfl⟩ | ⟨-, -, rfl⟩ := Laws.exec_next h
  all_goals exact ⟨rfl, _, rfl⟩

/-- With its table built a command succeeds, and without it the command faults, which is a response too. -/
theorem exec_of_blockInv {s : State} (hinv : BlockInv s) (i : Instr) : ∃ t, exec i s = .next t := by
  cases hready : tableReady i s with
  | false => exact ⟨_, exec_of_not_tableReady hready⟩
  | true =>
    obtain ⟨t, _, hexec, -⟩ := legalCommandWithTableSucceeds i s hinv hready
    exact ⟨t, hexec⟩

theorem step_of_decode_ok {s : State} {cw : CmdWord} {rest : List CmdWord} {i : Instr}
    (hcmds : s.commands = cw :: rest) (hdec : decode cw = .ok i) : step s = exec i { s with commands := rest } := by
  simp only [step, Laws.takeCommand_cons hcmds, hdec]

/-- Settles O11: an illegal word is answered from the decode alone, and a legal word's command gives the one response, success or
fault. -/
theorem everyWordGetsOneResponse : Obligations.EveryWordGetsOneResponse := by
  intro s cw rest hinv hcmds
  cases hdec : decode cw with
  | error why => exact ⟨_, _, step_of_decode_error hcmds hdec, rfl, rfl⟩
  | ok i =>
    have htaken : BlockInv { s with commands := rest } := ⟨hinv.half16, hinv.half32⟩
    obtain ⟨t, hexec⟩ := exec_of_blockInv htaken i
    obtain ⟨hrest, r, hresponse⟩ := exec_takes_no_word_and_appends_response hexec
    exact ⟨t, r, (step_of_decode_ok hcmds hdec).trans hexec, hrest, hresponse⟩

end Sys2Proof.Proofs
end

section
/-! The block's invariant (10_state.md R13, 40_table_builder.md R47): it holds at reset, every step keeps it, and with the two flags
it determines the block. -/

namespace Sys2Proof.Proofs

open Sys2Proof.Machine Sys2Proof.Safety

/-! ## One half of the block -/

section halfStep

variable {w : Nat} {entry : Byte → BitVec w} {building : Prop} {m m' : Memory w} {built built' : Bool}

theorem HalfStep.keeps_wf (h : HalfStep entry building m m' built built') (hm : m.wf) : m'.wf := by
  by_cases hb : building
  · rw [(h.build hb).1]
    exact Laws.Memory.writeAll_wf entry hm
  · rwa [(h.keep hb).1]

theorem HalfStep.keeps_halfInv (h : HalfStep entry building m m' built built') (hinv : HalfInv m built entry) :
    HalfInv m' built' entry := by
  by_cases hb : building
  · obtain ⟨rfl, rfl⟩ := h.build hb
    exact Laws.halfInv_writeAll hinv.wf entry
  · obtain ⟨rfl, rfl⟩ := h.keep hb
    exact hinv

theorem HalfStep.built_iff (h : HalfStep entry building m m' built built') :
    built' = true ↔ built = true ∨ building := by
  by_cases hb : building
  · exact iff_of_true (h.build hb).2 (.inr hb)
  · rw [(h.keep hb).2, or_iff_left hb]

/-- Built, both memories hold the defined entries; unbuilt, neither holds any. -/
theorem table_unique_of_halfInv (h : HalfInv m built entry) (h' : HalfInv m' built entry) : m' = m := by
  refine Laws.Memory.ext_of_wf h'.wf h.wf fun i => ?_
  cases hbuilt : built with
  | true => rw [h'.holds hbuilt, h.holds hbuilt]
  | false => rw [h'.empty hbuilt, h.empty hbuilt]

end halfStep

/-! ## The block -/

theorem BlockStep.keeps_blockInv {building16 building32 : Prop} {s t : State} (h : BlockStep building16 building32 s t)
    (hinv : BlockInv s) : BlockInv t :=
  ⟨h.half16.keeps_halfInv hinv.half16, h.half32.keeps_halfInv hinv.half32⟩

theorem blockInv_reset : BlockInv State.reset := ⟨Laws.halfInv_nil entry16, Laws.halfInv_nil entry32⟩

/-- Settles O2: both memories are empty. -/
theorem blockInvariantHoldsAtReset : Obligations.BlockInvariantHoldsAtReset := blockInv_reset

/-- Settles O3: a step fills a table together with setting its flag, or leaves both. -/
theorem blockInvariantKeptByStep : Obligations.BlockInvariantKeptByStep :=
  fun _ _ hinv hstep => (step_blockStep hstep).keeps_blockInv hinv

/-- Settles O4: a fill keeps the canonical form, and nothing else writes a table. -/
theorem canonicalTablesKeptByStep : Obligations.CanonicalTablesKeptByStep := by
  rintro s t ⟨hwf16, hwf32⟩ hstep
  obtain ⟨h16, h32⟩ := step_blockStep hstep
  exact ⟨h16.keeps_wf hwf16, h32.keeps_wf hwf32⟩

/-- Settles O6, each half by itself. -/
theorem flagSetByItsBuildAlone : Obligations.FlagSetByItsBuildAlone := by
  intro s t hstep
  have hencode16 : encode .bld16 = 0x100000000000 := bld16BuildsTable.1
  have hencode32 : encode .bld32 = 0x500000000000 := bld32BuildsTable.1
  obtain ⟨h16, h32⟩ := hencode16 ▸ hencode32 ▸ step_blockStep hstep
  exact ⟨h16.built_iff, h32.built_iff⟩

theorem sameBlock_of_same_flags {s t : State} (hs : BlockInv s) (ht : BlockInv t) (h16 : t.built16 = s.built16)
    (h32 : t.built32 = s.built32) : SameBlock s t :=
  ⟨⟨table_unique_of_halfInv hs.half16 (h16 ▸ ht.half16), h16⟩,
    table_unique_of_halfInv hs.half32 (h32 ▸ ht.half32), h32⟩

end Sys2Proof.Proofs
end

section
/-! The opcode table as a partition of the legal words (30_encoding.md R34, R36): each row has the words of its command, the legal
words are the encoded commands, and how many there are. -/

namespace Sys2Proof.Proofs

open Sys2Proof.Machine Sys2Proof.Safety

/-! ## Rows and commands (R34) -/

theorem rowOf_mem_opcodeTable (i : Instr) : rowOf i ∈ opcodeTable := by
  cases i <;> simp [rowOf, opcodeTable]

theorem rowOf_hits_encode (i : Instr) : (rowOf i).hits (encode i) = true := by
  cases i with
  | bld16 => exact Laws.MatchesRow.bld16.1
  | upd16 crc byte => exact (Laws.MatchesRow.upd16 crc byte).1
  | rdt16 idx => exact (Laws.MatchesRow.rdt16 idx).1
  | bld32 => exact Laws.MatchesRow.bld32.1
  | upd32 crc byte => exact (Laws.MatchesRow.upd32 crc byte).1
  | rdt32 idx => exact (Laws.MatchesRow.rdt32 idx).1

/-- The rows have different operation codes, and every row compares the operation code. -/
theorem row_unique_of_hits {cw : CmdWord} {r q : Row} (hr : r ∈ opcodeTable) (hq : q ∈ opcodeTable)
    (hcw_r : r.hits cw = true) (hcw_q : q.hits cw = true) : r = q := by
  have hop : ∀ r ∈ opcodeTable, ∀ q ∈ opcodeTable, opField r.bits = opField q.bits → r = q := by decide
  obtain ⟨hop_r, -⟩ := (hits_iff_of_mem hr cw).mp hcw_r
  obtain ⟨hop_q, -⟩ := (hits_iff_of_mem hq cw).mp hcw_q
  exact hop r hr q hq (hop_r.symm.trans hop_q)

theorem decode_ok_of_hits {cw : CmdWord} {r : Row} (hr : r ∈ opcodeTable) (hcw : r.hits cw = true) :
    ∃ i, decode cw = .ok i := by
  cases hdec : decode cw with
  | ok i => exact ⟨i, rfl⟩
  | error why => cases hcw.symm.trans ((decode_error_iff_no_hit cw).mp ⟨why, hdec⟩ r hr)

theorem hits_iff_decode_rowOf {r : Row} (hr : r ∈ opcodeTable) (cw : CmdWord) :
    r.hits cw = true ↔ ∃ i, decode cw = .ok i ∧ rowOf i = r := by
  constructor
  · intro hcw
    obtain ⟨i, hdec⟩ := decode_ok_of_hits hr hcw
    have hrow : (rowOf i).hits cw = true := encode_of_decode hdec ▸ rowOf_hits_encode i
    exact ⟨i, hdec, row_unique_of_hits (rowOf_mem_opcodeTable i) hr hrow hcw⟩
  · rintro ⟨i, hdec, rfl⟩
    exact encode_of_decode hdec ▸ rowOf_hits_encode i

/-- Settles O14: an encoded command matches its own row, and the operation code keeps the rows apart. -/
theorem patternDecidesCommand : Obligations.PatternDecidesCommand :=
  ⟨fun cw _ hr => hits_iff_decode_rowOf hr cw, fun _ _ _ => row_unique_of_hits⟩

/-! ## The legal words (R36) -/

/-- Each of R36's conditions on the fields makes the word fail `wellFormedWord`. -/
theorem not_wellFormedWord_of_decode_error {cw : CmdWord} {why : Illegal} (h : decode cw = .error why) :
    wellFormedWord cw = false := by
  obtain hop | hrsv | ⟨hop | hop, hfields⟩ | ⟨hop | hop, hcrc⟩ | ⟨hop, hhigh⟩ :=
    (decode_error_iff_fields cw).mp ⟨why, h⟩
  · obtain ⟨h1, h2, h3, h5, h6, h7⟩ := op_not_assigned_of_reserved hop
    simp_all [wellFormedWord, opAssigned]
  · simp_all [wellFormedWord]
  all_goals simp_all [wellFormedWord, unusedBitsClear]

theorem decode_ok_of_wellFormedWord {cw : CmdWord} (h : wellFormedWord cw = true) : ∃ i, decode cw = .ok i := by
  cases hdec : decode cw with
  | ok i => exact ⟨i, rfl⟩
  | error why => cases h.symm.trans (not_wellFormedWord_of_decode_error hdec)

/-- The encoder, onto the legal words. -/
def legalWord (i : Instr) : { cw : CmdWord // wellFormedWord cw = true } := ⟨encode i, wellFormedWord_encode i⟩

theorem legalWord_bijective : Function.Bijective legalWord := by
  constructor
  · intro i j h
    have hencode : encode i = encode j := congrArg Subtype.val h
    have hdec : decode (encode j) = .ok i := decode_eq_ok_iff.mpr hencode
    exact Except.ok.inj (hdec.symm.trans (decode_encode j))
  · rintro ⟨cw, hwf⟩
    obtain ⟨i, hdec⟩ := decode_ok_of_wellFormedWord hwf
    exact ⟨i, Subtype.ext (encode_of_decode hdec)⟩

/-- The commands by their operands, in the order of the opcode table. -/
def instrEquivOperands :
    Instr ≃ Unit ⊕ (BitVec 16 × Byte) ⊕ Byte ⊕ Unit ⊕ (BitVec 32 × Byte) ⊕ Byte where
  toFun
    | .bld16 => .inl ()
    | .upd16 crc byte => .inr (.inl (crc, byte))
    | .rdt16 idx => .inr (.inr (.inl idx))
    | .bld32 => .inr (.inr (.inr (.inl ())))
    | .upd32 crc byte => .inr (.inr (.inr (.inr (.inl (crc, byte)))))
    | .rdt32 idx => .inr (.inr (.inr (.inr (.inr idx))))
  invFun
    | .inl () => .bld16
    | .inr (.inl (crc, byte)) => .upd16 crc byte
    | .inr (.inr (.inl idx)) => .rdt16 idx
    | .inr (.inr (.inr (.inl ()))) => .bld32
    | .inr (.inr (.inr (.inr (.inl (crc, byte))))) => .upd32 crc byte
    | .inr (.inr (.inr (.inr (.inr idx)))) => .rdt32 idx
  left_inv i := by cases i <;> rfl
  right_inv x := by rcases x with _ | ⟨_, _⟩ | _ | _ | ⟨_, _⟩ | _ <;> rfl

theorem natCard_bitVec (n : Nat) : Nat.card (BitVec n) = 2 ^ n :=
  (Nat.card_congr BitVec.equivFin.toEquiv).trans (Nat.card_fin _)

theorem natCard_instr : Nat.card Instr = 1 + 2 ^ 24 + 2 ^ 8 + 1 + 2 ^ 40 + 2 ^ 8 := by
  rw [Nat.card_congr instrEquivOperands]
  simp only [Nat.card_sum, Nat.card_prod, natCard_bitVec, Nat.card_unique]
  norm_num

/-- Settles O15: the legal words are as many as the commands, and those as many as their operands. -/
theorem legalWordCount : Obligations.LegalWordCount :=
  (Nat.card_eq_of_bijective legalWord legalWord_bijective).symm.trans natCard_instr

end Sys2Proof.Proofs
end

section
/-! The machine as the step function on its two flags (70_reset_and_hazards.md R104): each command refines it, so does each word,
and so does every run; what follows for runs (20_memory.md R28, 70_reset_and_hazards.md R96) is then a fact about that function. -/

namespace Sys2Proof.Proofs

open Sys2Proof.Machine Sys2Proof.Safety

/-! ## The step function on a command -/

/-- The two flags of a state, on which `pureStep` works. -/
def flagsOf (s : State) : Bool × Bool := (s.built16, s.built32)

/-- `tableReady`, given the flags alone (60_exceptions.md R83). -/
def flagReady (f : Bool × Bool) : Instr → Bool
  | .bld16 | .bld32 => true
  | .upd16 _ _ | .rdt16 _ => f.1
  | .upd32 _ _ | .rdt32 _ => f.2

/-- The flags after a command (10_state.md R13). -/
def flagsAfter (f : Bool × Bool) : Instr → Bool × Bool
  | .bld16 => (true, f.2)
  | .bld32 => (f.1, true)
  | .upd16 _ _ | .rdt16 _ | .upd32 _ _ | .rdt32 _ => f

/-- The value that a command answers when it succeeds, by the pure entries. -/
def okValue : Instr → BitVec 32
  | .bld16 | .bld32 => 0
  | .upd16 crc byte => value16 (upd16 entry16 crc byte)
  | .rdt16 idx => value16 (entry16 idx)
  | .upd32 crc byte => value32 (upd32 entry32 crc byte)
  | .rdt32 idx => value32 (entry32 idx)

/-- The response to a command, given the flags. -/
def pureResponse (f : Bool × Bool) (i : Instr) : Response :=
  if flagReady f i then ⟨.ok, okValue i⟩ else ⟨.errNotBuilt, 0⟩

theorem flagReady_flagsOf (s : State) (i : Instr) : flagReady (flagsOf s) i = tableReady i s := by
  cases i <;> rfl

theorem pureResponse_ok_iff (f : Bool × Bool) (i : Instr) : (pureResponse f i).status = .ok ↔ flagReady f i = true := by
  unfold pureResponse
  split_ifs with hready <;> simp [hready]

theorem pureResponse_ok_or_errNotBuilt (f : Bool × Bool) (i : Instr) :
    (pureResponse f i).status = .ok ∨ pureResponse f i = ⟨.errNotBuilt, 0⟩ := by
  unfold pureResponse
  split_ifs
  · exact .inl rfl
  · exact .inr rfl

/-- Ties the reading by command to `pureStep`'s reading by the fields of the word. -/
theorem pureStep_encode (f : Bool × Bool) (i : Instr) : pureStep f (encode i) = (flagsAfter f i, pureResponse f i) := by
  rw [pureStep, if_pos (wellFormedWord_encode i)]
  cases i with
  | bld16 | bld32 => simp [encode, flagsAfter, pureResponse, flagReady, okValue]
  | upd16 _ _ | rdt16 _ | upd32 _ _ | rdt32 _ =>
    simp only [encode, flagsAfter, Laws.opField_commandWord, Laws.crcField_commandWord,
      Laws.byteField_commandWord, crcLowField_commandWord_setWidth]
    rfl

theorem pureRun_encode_cons (f : Bool × Bool) (i : Instr) (is : List Instr) :
    pureRun f ((i :: is).map encode)
      = ((pureRun (flagsAfter f i) (is.map encode)).1,
          pureResponse f i :: (pureRun (flagsAfter f i) (is.map encode)).2) := by
  rw [List.map_cons, pureRun, pureStep_encode]

/-! ## One command, one word (R103, R104) -/

theorem exec_flags {i : Instr} {s t : State} (h : exec i s = .next t) : flagsOf t = flagsAfter (flagsOf s) i := by
  obtain ⟨rfl, rfl⟩ | ⟨rfl, rfl⟩ | ⟨hi, -, v, rfl⟩ | ⟨hi, -, rfl⟩ := Laws.exec_next h
  case inl | inr.inl => rfl
  all_goals
    cases i with
    | bld16 | bld32 => cases hi
    | upd16 _ _ | rdt16 _ | upd32 _ _ | rdt32 _ => rfl

/-- A built table holds the pure entries, so that the one a command reads is the one `okValue` takes. -/
theorem exec_of_tableReady {i : Instr} {s : State} (hinv : BlockInv s) (hready : tableReady i s = true) :
    ∃ t, exec i s = .next t ∧ t.responses = s.responses ++ [⟨.ok, okValue i⟩] := by
  cases i with
  | bld16 => exact ⟨_, exec_bld16 s, rfl⟩
  | bld32 => exact ⟨_, exec_bld32 s, rfl⟩
  | upd16 crc byte => exact ⟨_, exec_upd16_of_halfInv hinv.half16 hready crc byte, rfl⟩
  | upd32 crc byte => exact ⟨_, exec_upd32_of_halfInv hinv.half32 hready crc byte, rfl⟩
  | rdt16 idx => exact ⟨_, (exec_rdt16_eq_ok_iff hready idx _).mpr (hinv.half16.holds hready idx), rfl⟩
  | rdt32 idx => exact ⟨_, (exec_rdt32_eq_ok_iff hready idx _).mpr (hinv.half32.holds hready idx), rfl⟩

theorem exec_pureResponse {s : State} (hinv : BlockInv s) (i : Instr) :
    ∃ t, exec i s = .next t ∧ t.responses = s.responses ++ [pureResponse (flagsOf s) i] := by
  rw [pureResponse, flagReady_flagsOf]
  cases hready : tableReady i s with
  | false => exact ⟨_, exec_of_not_tableReady hready, rfl⟩
  | true => exact exec_of_tableReady hinv hready

/-- `t` is what the machine makes of `s` where R104's step function gives the flags and the responses `p`, with the words `rest`
still to issue. -/
structure RefinesPure (p : (Bool × Bool) × List Response) (rest : List CmdWord) (s t : State) : Prop where
  inv : BlockInv t
  flags : flagsOf t = p.1
  commands : t.commands = rest
  responses : t.responses = s.responses ++ p.2

theorem step_refinesPure {s : State} (hinv : BlockInv s) {cw : CmdWord} {rest : List CmdWord}
    (hcmds : s.commands = cw :: rest) :
    ∃ t, step s = .next t
      ∧ RefinesPure ((pureStep (flagsOf s) cw).1, [(pureStep (flagsOf s) cw).2]) rest s t := by
  cases hwf : wellFormedWord cw with
  | false =>
    have hpure : pureStep (flagsOf s) cw = (flagsOf s, ⟨.errIllegal, 0⟩) := by simp [pureStep, hwf]
    rw [hpure]
    exact ⟨_, illegalWordAnsweredErrIllegal s cw rest hcmds hwf, ⟨hinv.half16, hinv.half32⟩, rfl, rfl, rfl⟩
  | true =>
    obtain ⟨i, hdec⟩ := decode_ok_of_wellFormedWord hwf
    have htaken : BlockInv { s with commands := rest } := ⟨hinv.half16, hinv.half32⟩
    obtain ⟨t, hexec, hresponse⟩ := exec_pureResponse htaken i
    rw [← encode_of_decode hdec, pureStep_encode]
    have hflags := exec_flags (s := { s with commands := rest }) hexec
    obtain ⟨hcommands, -⟩ := exec_takes_no_word_and_appends_response hexec
    exact ⟨t, (step_of_decode_ok hcmds hdec).trans hexec, (exec_blockStep hexec).keeps_blockInv htaken, hflags,
      hcommands, hresponse⟩

/-! ## Runs (R104) -/

theorem run_refinesPure {s : State} (hinv : BlockInv s) :
    ∃ t, RunsTo s.commands.length s t ∧ RefinesPure (pureRun (flagsOf s) s.commands) [] s t := by
  generalize hcmds : s.commands = cws
  induction cws generalizing s with
  | nil => exact ⟨s, Laws.run_zero s, hinv, rfl, hcmds, (List.append_nil _).symm⟩
  | cons cw rest ih =>
    obtain ⟨u, hstep, hu⟩ := step_refinesPure hinv hcmds
    obtain ⟨t, hrun, ht⟩ := ih hu.inv hu.commands
    rw [hu.flags] at ht
    refine ⟨t, Laws.runsTo_succ.mpr ⟨u, hstep, hrun⟩, ht.inv, ht.flags, ht.commands, ?_⟩
    rw [ht.responses, hu.responses, List.append_assoc]
    rfl

/-- Settles O12: word by word the machine does what the step function on the flags does. -/
theorem machineRefinesPureStepFunction : Obligations.MachineRefinesPureStepFunction := by
  intro s hinv
  obtain ⟨t, hrun, ht⟩ := run_refinesPure hinv
  exact ⟨t, hrun, ht.commands, ht.responses, ht.flags⟩

theorem blockInv_facing {s : State} (h : BlockInv s) (cws : List CmdWord) : BlockInv (facing s cws) :=
  ⟨h.half16, h.half32⟩

/-- For each pair of flags, the builds of the tables it names. -/
def buildWords (b16 b32 : Bool) : List CmdWord :=
  (if b16 then [encode .bld16] else []) ++ if b32 then [encode .bld32] else []

theorem pureRun_buildWords (b16 b32 : Bool) : (pureRun (false, false) (buildWords b16 b32)).1 = (b16, b32) := by
  revert b16 b32
  decide

/-- Settles O7: the invariant leaves the tables no choice, and building the tables of a pair of flags reaches it. -/
theorem fourReachableBlockStates : Obligations.FourReachableBlockStates := by
  refine ⟨fun s t => sameBlock_of_same_flags, fun b16 b32 => ?_⟩
  obtain ⟨t, hrun, ht⟩ := run_refinesPure (blockInv_facing blockInv_reset (buildWords b16 b32))
  have hflags : flagsOf t = (b16, b32) := ht.flags.trans (pureRun_buildWords b16 b32)
  exact ⟨_, t, hrun, congrArg Prod.fst hflags, congrArg Prod.snd hflags⟩

/-- A host's list of commands, each issued as its word. -/
theorem run_facing_encode {s : State} (hinv : BlockInv s) (is : List Instr) :
    ∃ t, RunsTo is.length (facing s (is.map encode)) t
      ∧ RefinesPure (pureRun (flagsOf s) (is.map encode)) [] (facing s (is.map encode)) t := by
  have hlength : (facing s (is.map encode)).commands.length = is.length := List.length_map encode
  exact hlength ▸ run_refinesPure (blockInv_facing hinv (is.map encode))

/-! ## The boot duty (R96, R97) -/

theorem bootDuty_cons (f : Bool × Bool) (i : Instr) (is : List Instr) :
    bootDuty f.1 f.2 (i :: is) = (flagReady f i && bootDuty (flagsAfter f i).1 (flagsAfter f i).2 is) := by
  cases i <;> rfl

theorem length_pureRun (f : Bool × Bool) (cws : List CmdWord) : (pureRun f cws).2.length = cws.length := by
  induction cws generalizing f with
  | nil => rfl
  | cons cw cws ih => simp [pureRun, ih]

theorem pureRun_all_ok_iff_bootDuty (f : Bool × Bool) (is : List Instr) :
    (∀ r ∈ (pureRun f (is.map encode)).2, r.status = .ok) ↔ bootDuty f.1 f.2 is = true := by
  induction is generalizing f with
  | nil => simp [pureRun, bootDuty]
  | cons i is ih =>
    rw [pureRun_encode_cons, List.forall_mem_cons, pureResponse_ok_iff, ih, bootDuty_cons, Bool.and_eq_true]

theorem pureRun_ok_or_errNotBuilt (f : Bool × Bool) (is : List Instr) :
    ∀ r ∈ (pureRun f (is.map encode)).2, r.status = .ok ∨ r = ⟨.errNotBuilt, 0⟩ := by
  induction is generalizing f with
  | nil => exact nofun
  | cons i is ih =>
    rw [pureRun_encode_cons]
    exact List.forall_mem_cons.mpr ⟨pureResponse_ok_or_errNotBuilt f i, ih _⟩

/-- Settles O42: the boot duty asks of each command what makes its pure response `OK`. -/
theorem bootDutyIsTheOnlyOrdering : Obligations.BootDutyIsTheOnlyOrdering := by
  intro s is hinv
  obtain ⟨t, hrun, ht⟩ := run_facing_encode hinv is
  have hresponses : t.responses = (pureRun (flagsOf s) (is.map encode)).2 := ht.responses
  refine ⟨t, hrun, ?_⟩
  rw [hresponses]
  exact ⟨by rw [length_pureRun, List.length_map], pureRun_all_ok_iff_bootDuty (flagsOf s) is,
    pureRun_ok_or_errNotBuilt (flagsOf s) is⟩

/-! ## Interleaving (20_memory.md R28) -/

/-- The commands that `own` names work on one flag alone, read by `flag`: they look at no other, and no other command sets
it. -/
structure OwnsFlag (own : Instr → Bool) (flag : Bool × Bool → Bool) : Prop where
  of_own : ∀ {i f g}, own i = true → flag f = flag g →
    flagReady f i = flagReady g i ∧ flag (flagsAfter f i) = flag (flagsAfter g i)
  of_other : ∀ {i f}, own i = false → flag (flagsAfter f i) = flag f

theorem ownsFlag_crc16 : OwnsFlag isCrc16 Prod.fst where
  of_own {i _ _} hi h := by
    cases i with
    | bld16 => exact ⟨rfl, rfl⟩
    | upd16 _ _ | rdt16 _ => exact ⟨h, h⟩
    | bld32 | upd32 _ _ | rdt32 _ => cases hi
  of_other {i _} hi := by
    cases i with
    | bld16 | upd16 _ _ | rdt16 _ => cases hi
    | bld32 | upd32 _ _ | rdt32 _ => rfl

theorem ownsFlag_crc32 : OwnsFlag isCrc32 Prod.snd where
  of_own {i _ _} hi h := by
    cases i with
    | bld32 => exact ⟨rfl, rfl⟩
    | upd32 _ _ | rdt32 _ => exact ⟨h, h⟩
    | bld16 | upd16 _ _ | rdt16 _ => cases hi
  of_other {i _} hi := by
    cases i with
    | bld32 | upd32 _ _ | rdt32 _ => cases hi
    | bld16 | upd16 _ _ | rdt16 _ => rfl

/-- The responses, of those given to a list of commands, that go to the commands `own` names. -/
def ownResponses (own : Instr → Bool) (is : List Instr) (rs : List Response) : List Response :=
  ((is.zip rs).filter fun p => own p.1).map Prod.snd

theorem pureRun_filter {own : Instr → Bool} {flag : Bool × Bool → Bool} (h : OwnsFlag own flag) (is : List Instr)
    {f g : Bool × Bool} (hfg : flag f = flag g) :
    flag (pureRun g ((is.filter own).map encode)).1 = flag (pureRun f (is.map encode)).1
      ∧ (pureRun g ((is.filter own).map encode)).2 = ownResponses own is (pureRun f (is.map encode)).2 := by
  induction is generalizing f g with
  | nil => exact ⟨hfg.symm, rfl⟩
  | cons i is ih =>
    cases hi : own i with
    | false =>
      obtain ⟨hflag, hresponses⟩ := ih ((h.of_other hi).trans hfg)
      rw [List.filter_cons_of_neg (by simp [hi]), pureRun_encode_cons, hflag, hresponses]
      exact ⟨rfl, by simp [ownResponses, hi]⟩
    | true =>
      obtain ⟨hready, hafter⟩ := h.of_own hi hfg
      obtain ⟨hflag, hresponses⟩ := ih hafter
      rw [List.filter_cons_of_pos hi, pureRun_encode_cons, pureRun_encode_cons, hflag, hresponses]
      have hhead : pureResponse g i = pureResponse f i := by rw [pureResponse, pureResponse, hready]
      exact ⟨rfl, by simp [ownResponses, hi, hhead]⟩

/-- Settles O41: on the flags, taking out the other variant's commands changes nothing for a variant; and the flag determines
the half. -/
theorem interleavingChangesNoResponse : Obligations.InterleavingChangesNoResponse := by
  intro s is hinv
  obtain ⟨t, hrun_t, ht⟩ := run_facing_encode hinv is
  obtain ⟨u, hrun_u, hu⟩ := run_facing_encode hinv (is.filter isCrc16)
  obtain ⟨v, hrun_v, hv⟩ := run_facing_encode hinv (is.filter isCrc32)
  obtain ⟨hflag16, hresponses16⟩ := pureRun_filter ownsFlag_crc16 is (rfl : (flagsOf s).1 = (flagsOf s).1)
  obtain ⟨hflag32, hresponses32⟩ := pureRun_filter ownsFlag_crc32 is (rfl : (flagsOf s).2 = (flagsOf s).2)
  rw [← ht.flags, ← hu.flags] at hflag16
  rw [← ht.flags, ← hv.flags] at hflag32
  have hbuilt16 : u.built16 = t.built16 := hflag16
  have hbuilt32 : v.built32 = t.built32 := hflag32
  have hresponses : t.responses = (pureRun (flagsOf s) (is.map encode)).2 := ht.responses
  rw [← hresponses] at hresponses16 hresponses32
  refine ⟨t, u, v, hrun_t, hrun_u, hrun_v, hu.responses.trans hresponses16, hv.responses.trans hresponses32, ?_, ?_⟩
  · exact ⟨table_unique_of_halfInv ht.inv.half16 (hbuilt16 ▸ hu.inv.half16), hbuilt16⟩
  · exact ⟨table_unique_of_halfInv ht.inv.half32 (hbuilt32 ▸ hv.inv.half32), hbuilt32⟩

end Sys2Proof.Proofs
end

section
/-! The bit-serial division behind the tables (40_table_builder.md section 6, 41_updater.md section 5): its shift is linear over XOR,
so the low byte of a running value can be divided apart from the rest, which is what a table-driven update does. -/

namespace Sys2Proof.Proofs

open Sys2Proof.Machine Sys2Proof.Safety

/-! ## The shift (40_table_builder.md section 6) -/

section crcShift

variable {w : Nat} (poly : BitVec w)

theorem crcShift_of_even {v : BitVec w} (h : v.getLsbD 0 = false) : crcShift poly v = v >>> 1 := by
  simp [crcShift, h]

theorem crcShift_eq_shift_xor (v : BitVec w) : crcShift poly v = (v >>> 1) ^^^ if v.getLsbD 0 then poly else 0#w := by
  cases h : v.getLsbD 0 <;> simp [crcShift, h]

/-- Where both bits are set, the two polynomials cancel. -/
theorem poly_if_xor (a b : Bool) :
    (if a ^^ b then poly else 0#w) = (if a then poly else 0#w) ^^^ if b then poly else 0#w := by
  cases a <;> cases b <;> simp

theorem crcShift_xor (u v : BitVec w) : crcShift poly (u ^^^ v) = crcShift poly u ^^^ crcShift poly v := by
  simp only [crcShift_eq_shift_xor, BitVec.getLsbD_xor, poly_if_xor, BitVec.ushiftRight_xor_distrib]
  ac_rfl

theorem iterate_crcShift_xor (k : Nat) (u v : BitVec w) :
    iterate (crcShift poly) k (u ^^^ v) = iterate (crcShift poly) k u ^^^ iterate (crcShift poly) k v := by
  induction k generalizing u v with
  | zero => rfl
  | succ k ih => rw [iterate, crcShift_xor, ih, iterate, iterate]

/-- While only zeros are shifted out the polynomial plays no part. -/
theorem iterate_crcShift_of_low_zero {k : Nat} {v : BitVec w} (h : ∀ j < k, v.getLsbD j = false) :
    iterate (crcShift poly) k v = v >>> k := by
  induction k generalizing v with
  | zero => exact (BitVec.ushiftRight_zero v).symm
  | succ k ih =>
    have hrest : ∀ j < k, (v >>> 1).getLsbD j = false := fun j hj => by
      rw [BitVec.getLsbD_ushiftRight]
      exact h (1 + j) (by omega)
    rw [iterate, crcShift_of_even poly (h 0 (by omega)), ih hrest, ← BitVec.shiftRight_add, Nat.add_comm]

theorem seededEntry_xor (a b : Byte) : seededEntry poly (a ^^^ b) = seededEntry poly a ^^^ seededEntry poly b := by
  rw [seededEntry, BitVec.setWidth_xor, iterate_crcShift_xor, seededEntry, seededEntry]

end crcShift

/-- Settles O24: it is the law by which the 16-bit entries are those of the seeded form. -/
theorem copyAndSeededProceduresAgree : Obligations.CopyAndSeededProceduresAgree :=
  fun _ hw poly i => copyEntry_eq_seededEntry poly hw i

/-- Settles O25: both entry functions are the seeded form, which is linear as its shift is. -/
theorem tablesAreLinear : Obligations.TablesAreLinear := by
  refine ⟨fun a b => ?_, seededEntry_xor Config.poly32, by decide, by decide, by decide, by decide⟩
  rw [← seededEntry_poly16]
  exact seededEntry_xor Config.poly16 a b

/-- Settles O26, by evaluation of the two procedures. -/
theorem workedEntryTraces : Obligations.WorkedEntryTraces := by
  unfold Obligations.WorkedEntryTraces
  decide

/-! ## One update (41_updater.md section 5) -/

section update

variable {w : Nat} (x : BitVec w) (b : Byte)

theorem xor_byte_ushiftRight : (x ^^^ b.setWidth w) >>> 8 = x >>> 8 := by
  have hbyte : b.setWidth w >>> 8 = 0#w := by
    ext k hk
    simp
  rw [BitVec.ushiftRight_xor_distrib, hbyte, BitVec.xor_zero]

theorem xor_byte_setWidth (hw : 8 ≤ w) : (x ^^^ b.setWidth w).setWidth 8 = x.setWidth 8 ^^^ b := by
  rw [BitVec.setWidth_xor, BitVec.setWidth_setWidth_of_le b hw, BitVec.setWidth_eq]

/-- The common difference `d` cancels in the index, and the shift by 8 drops it from the running value. -/
theorem upd_xor_xor (hw : 8 ≤ w) (T : Byte → BitVec w) (d : Byte) :
    upd T (x ^^^ d.setWidth w) (b ^^^ d) = upd T x b := by
  have hcancel : x.setWidth 8 ^^^ d ^^^ (b ^^^ d) = x.setWidth 8 ^^^ b ^^^ (d ^^^ d) := by ac_rfl
  rw [upd_eq_shift_xor_entry _ _ _ hw, upd_eq_shift_xor_entry _ _ _ hw, xor_byte_ushiftRight, xor_byte_setWidth _ _ hw,
    hcancel, BitVec.xor_self, BitVec.xor_zero]

/-- The running value without its low byte: eight shifts of it only move its upper bytes down. -/
def clearLowByte : BitVec w := x ^^^ (x.setWidth 8).setWidth w

theorem iterate_crcShift_clearLowByte (poly : BitVec w) : iterate (crcShift poly) 8 (clearLowByte x) = x >>> 8 := by
  have hlow : ∀ j < 8, (clearLowByte x).getLsbD j = false := fun j hj => by
    by_cases hjw : j < w
    · simp [clearLowByte, hj, hjw]
    · exact BitVec.getLsbD_of_ge _ _ (Nat.le_of_not_lt hjw)
  rw [iterate_crcShift_of_low_zero poly hlow, clearLowByte, xor_byte_ushiftRight]

/-- The division splits into that of the upper bytes, which is a shift, and that of the low byte, which is the entry. -/
theorem upd_seededEntry_eq_bitSerial (hw : 8 ≤ w) (poly : BitVec w) :
    upd (seededEntry poly) x b = bitSerial poly x b := by
  have hsplit : x ^^^ b.setWidth w = clearLowByte x ^^^ (x.setWidth 8 ^^^ b).setWidth w := by
    rw [BitVec.setWidth_xor, clearLowByte, BitVec.xor_assoc, ← BitVec.xor_assoc ((x.setWidth 8).setWidth w),
      BitVec.xor_self, BitVec.zero_xor]
  rw [upd_eq_shift_xor_entry _ _ _ hw, bitSerial, hsplit, iterate_crcShift_xor, iterate_crcShift_clearLowByte]
  rfl

end update

/-- Settles O30 at the two widths. -/
theorem updateDependsOnLowByteXor : Obligations.UpdateDependsOnLowByteXor :=
  ⟨fun T crc b d => upd_xor_xor crc b (by decide) T d, fun T crc b d => upd_xor_xor crc b (by decide) T d⟩

/-! ## Byte sequences (43_session_protocol.md R68, R69) -/

theorem foldBytes_eq_foldl {w : Nat} (T : Byte → BitVec w) (x : BitVec w) (bs : List Byte) :
    foldBytes T x bs = bs.foldl (upd T) x := by
  induction bs generalizing x with
  | nil => rfl
  | cons b bs ih => exact ih (upd T x b)

theorem foldBytes_append {w : Nat} (T : Byte → BitVec w) (x : BitVec w) (bs cs : List Byte) :
    foldBytes T x (bs ++ cs) = foldBytes T (foldBytes T x bs) cs := by
  simp only [foldBytes_eq_foldl, List.foldl_append]

theorem foldBytes_seededEntry {w : Nat} (hw : 8 ≤ w) (poly x : BitVec w) (bs : List Byte) :
    foldBytes (seededEntry poly) x bs = bs.foldl (bitSerial poly) x := by
  have hupdate : upd (seededEntry poly) = bitSerial poly :=
    funext fun y => funext fun b => upd_seededEntry_eq_bitSerial y b hw poly
  rw [foldBytes_eq_foldl, hupdate]

/-- Settles O31: each table is the seeded form of its polynomial, by whose entries one update is one bit-serial step. -/
theorem tableDrivenEqualsBitSerial : Obligations.TableDrivenEqualsBitSerial := by
  refine ⟨fun x bs => ?_, foldBytes_seededEntry (by decide) Config.poly32⟩
  rw [← seededEntry_poly16]
  exact foldBytes_seededEntry (by decide) Config.poly16 x bs

/-- A zero byte leaves the running value 0 as it is. -/
theorem foldBytes_zeros (k : Nat) : foldBytes entry16 0 (List.replicate k 0) = 0 := by
  have hupd : upd entry16 0 0 = 0 := by decide
  induction k with
  | zero => rfl
  | succ k ih => rw [List.replicate_succ, foldBytes, hupd, ih]

/-- Settles O49: the initial value of CRC16 is 0, and leading zeros keep it. -/
theorem crc16IgnoresLeadingZeros : Obligations.Crc16IgnoresLeadingZeros := by
  intro k bs
  have hzeros : foldBytes entry16 Config.init16 (List.replicate k 0) = Config.init16 := foldBytes_zeros k
  rw [crc16, foldBytes_append, hzeros, crc16]

end Sys2Proof.Proofs
end

section
/-! The order of issue (20_memory.md R25, 60_exceptions.md R90): a step runs the next command of the host, and idles where there is
none. -/

namespace Sys2Proof.Proofs

open Sys2Proof.Machine Sys2Proof.Safety

/-- The table word of a command word's 48 bits is that word. -/
theorem tableWord_toNat (cw : CmdWord) : tableWord 48 cw.toNat = some cw := by
  rw [tableWord, if_pos ⟨Nat.le_refl 48, cw.isLt⟩, BitVec.ofNat_toNat, BitVec.setWidth_eq]

theorem withFetchWord_toNat (s : State) (cw : CmdWord) : s.withFetchWord 48 cw.toNat = issueFirst cw s := by
  rw [State.withFetchWord, tableWord_toNat]

/-- Settles O8: the word placed by the host is at the head of its list. -/
theorem stepRunsDecodedCommand : Obligations.StepRunsDecodedCommand := by
  refine ⟨fun s cw rest i hcmds hdec _ => step_of_decode_ok hcmds hdec, fun s cw i hdec => ?_⟩
  rw [withFetchWord_toNat]
  exact step_of_decode_ok (Laws.State.issueFirst_commands cw s) hdec

/-- Settles O9: there is no word to take. -/
theorem stepIdlesWithoutCommand : Obligations.StepIdlesWithoutCommand := by
  intro s hcmds
  rw [step, Laws.takeCommand_nil hcmds]
  exact congrArg Host.Outcome.next (Laws.State.idle_eq s)

/-- Settles O18: each word is the encoder's of its command, compared bit for bit. -/
theorem workedEncodingsDecode : Obligations.WorkedEncodingsDecode := by
  refine ⟨?_, ?_, ?_, ?_, ?_, ?_⟩ <;> exact decode_eq_ok_iff.mpr (by decide)

end Sys2Proof.Proofs
end

section
/-! The response word and the written form of a command (30_encoding.md R32, R38): what each carries can be read back. -/

namespace Sys2Proof.Proofs

open Sys2Proof.Machine Sys2Proof.Safety

/-! ## The response word (R32) -/

theorem statusOfCode_statusCode (st : Status) : statusOfCode (statusCode st) = some st := by
  cases st <;> decide

/-- Code 3 is the one code that names no status. -/
theorem statusOfCode_cases (c : BitVec 2) :
    (c = 3 ∧ statusOfCode c = none) ∨ ∃ st, statusOfCode c = some st ∧ statusCode st = c := by
  have hcodes : ∀ c : BitVec 2, c = 0 ∨ c = 1 ∨ c = 2 ∨ c = 3 := by decide
  obtain rfl | rfl | rfl | rfl := hcodes c
  · exact .inr ⟨.ok, rfl, rfl⟩
  · exact .inr ⟨.errIllegal, rfl, rfl⟩
  · exact .inr ⟨.errNotBuilt, rfl, rfl⟩
  · exact .inl ⟨rfl, rfl⟩

theorem responseWord_status (r : Response) : (responseWord r).extractLsb' 32 2 = statusCode r.status :=
  BitVec.extractLsb'_append_eq_left

theorem responseWord_value (r : Response) : (responseWord r).extractLsb' 0 32 = r.value :=
  BitVec.extractLsb'_append_eq_right

theorem readResponseWord_responseWord (r : Response) : readResponseWord (responseWord r) = some r := by
  rw [readResponseWord, responseWord_status, responseWord_value, statusOfCode_statusCode, Option.map_some]

/-- The two fields make up the word. -/
theorem responseWord_of_fields {rsp : RspWord} {st : Status} (h : statusCode st = rsp.extractLsb' 32 2) :
    responseWord ⟨st, rsp.extractLsb' 0 32⟩ = rsp := by
  rw [responseWord, h]
  exact (BitVec.extractLsb'_append_extractLsb'_eq_extractLsb' (len₁ := 32) (len₂ := 2) rfl).trans
    BitVec.extractLsb'_eq_self

/-- Settles O19: the status code in the upper field decides whether the word is a response. -/
theorem responseWordLayout : Obligations.ResponseWordLayout := by
  refine ⟨fun r => ⟨responseWord_status r, responseWord_value r, readResponseWord_responseWord r⟩, fun rsp => ?_⟩
  obtain ⟨hcode, hnone⟩ | ⟨st, hsome, hcode⟩ := statusOfCode_cases (rsp.extractLsb' 32 2)
  · exact .inl ⟨hcode, by rw [readResponseWord, hnone, Option.map_none]⟩
  · exact .inr ⟨_, by rw [readResponseWord, hsome, Option.map_some], responseWord_of_fields hcode⟩

/-! ## The written form (R38) -/

theorem hexDigit_injective : Function.Injective hexDigit := by
  unfold Function.Injective
  decide

theorem length_hexDigits {w : Nat} (v : BitVec w) (k : Nat) : (hexDigits v k).length = k := by
  induction k with
  | zero => rfl
  | succ k ih => rw [hexDigits, List.length_cons, ih]

theorem length_hexNumeral {w : Nat} (v : BitVec w) (k : Nat) : (hexNumeral v k).length = k + 2 := by
  rw [hexNumeral, List.length_cons, List.length_cons, length_hexDigits]

/-- The low `k` digits tell the low `4 * k` bits. -/
theorem getLsbD_eq_of_hexDigits_eq {w k : Nat} {u v : BitVec w} (h : hexDigits u k = hexDigits v k) {n : Nat}
    (hn : n < 4 * k) : u.getLsbD n = v.getLsbD n := by
  induction k with
  | zero => omega
  | succ k ih =>
    obtain ⟨hhead, htail⟩ := List.cons.inj h
    by_cases hlow : n < 4 * k
    · exact ih htail hlow
    · have hdigit := congrArg (fun d => BitVec.getLsbD d (n - 4 * k)) (hexDigit_injective hhead)
      simpa [show n - 4 * k < 4 by omega, show 4 * k + (n - 4 * k) = n by omega] using hdigit

theorem hexNumeral_inj {w k : Nat} (hw : w = 4 * k) {u v : BitVec w} : hexNumeral u k = hexNumeral v k ↔ u = v := by
  refine ⟨fun h => BitVec.eq_of_getLsbD_eq fun n hn => ?_, fun h => h ▸ rfl⟩
  have hdigits : hexDigits u k = hexDigits v k := (List.cons.inj (List.cons.inj h).2).2
  exact getLsbD_eq_of_hexDigits_eq hdigits (hw ▸ hn)

/-- The two written operands of an update: the first has a fixed length, which tells where it ends. -/
theorem hexOperands_inj {w k : Nat} (hw : w = 4 * k) {crc crc' : BitVec w} {byte byte' : Byte} :
    hexNumeral crc k ++ ',' :: ' ' :: hexNumeral byte 2 = hexNumeral crc' k ++ ',' :: ' ' :: hexNumeral byte' 2
      ↔ crc = crc' ∧ byte = byte' := by
  constructor
  · intro h
    have hlength : (hexNumeral crc k).length = (hexNumeral crc' k).length := by
      rw [length_hexNumeral, length_hexNumeral]
    obtain ⟨hcrc, htail⟩ := List.append_inj h hlength
    have hbyte : hexNumeral byte 2 = hexNumeral byte' 2 := (List.cons.inj (List.cons.inj htail).2).2
    exact ⟨(hexNumeral_inj hw).mp hcrc, (hexNumeral_inj (k := 2) rfl).mp hbyte⟩
  · rintro ⟨rfl, rfl⟩
    rfl

/-- Settles O20: the mnemonic tells the kind of command, and the digits its operands. -/
theorem writtenFormDeterminesCommand : Obligations.WrittenFormDeterminesCommand := by
  intro i j h
  cases i with
  | bld16 =>
    cases j with
    | bld16 => rfl
    | _ => simp [written] at h
  | upd16 crc byte =>
    cases j with
    | upd16 crc' byte' => simpa [written, hexOperands_inj (w := 16) (k := 4) rfl] using h
    | _ => simp [written] at h
  | rdt16 idx =>
    cases j with
    | rdt16 idx' => simpa [written, hexNumeral_inj (w := 8) (k := 2) rfl] using h
    | _ => simp [written] at h
  | bld32 =>
    cases j with
    | bld32 => rfl
    | _ => simp [written] at h
  | upd32 crc byte =>
    cases j with
    | upd32 crc' byte' => simpa [written, hexOperands_inj (w := 32) (k := 8) rfl] using h
    | _ => simp [written] at h
  | rdt32 idx =>
    cases j with
    | rdt32 idx' => simpa [written, hexNumeral_inj (w := 8) (k := 2) rfl] using h
    | _ => simp [written] at h

end Sys2Proof.Proofs
end

section
/-! Frames of the commands (20_memory.md R21, R28, 41_updater.md R54): what an update or a read leaves alone, that a build is enough
for every command of its variant, and that a command does not touch the other variant's half. -/

namespace Sys2Proof.Proofs

open Sys2Proof.Machine Sys2Proof.Safety

theorem exec_respond_of_not_isBuild {i : Instr} {s t : State} (hi : isBuild i = false) (h : exec i s = .next t) :
    ∃ st v, t = respond st v s := by
  obtain ⟨rfl, -⟩ | ⟨rfl, -⟩ | ⟨-, -, v, rfl⟩ | ⟨-, -, rfl⟩ := Laws.exec_next h
  · cases hi
  · cases hi
  · exact ⟨.ok, v, rfl⟩
  · exact ⟨.errNotBuilt, 0, rfl⟩

/-- Settles O37: such a command does nothing but respond. -/
theorem updatesAndReadsWriteNoState : Obligations.UpdatesAndReadsWriteNoState := by
  intro i s t hi hexec
  obtain ⟨st, v, rfl⟩ := exec_respond_of_not_isBuild hi hexec
  exact ⟨sameBlock_respond st v s, fun _ => rfl, fun _ => rfl, Laws.State.respond_commands st v s,
    _, Laws.State.respond_responses st v s⟩

/-! ## After a build (60_exceptions.md R87) -/

/-- Of the block a CRC16 command needs the flag and the entries alone, canonical or not. -/
theorem exec_crc16_ok_of_table {i : Instr} {s : State} (hi : isCrc16 i = true) (hbuilt : s.built16 = true)
    (hread : ∀ idx, s.t16.read idx = some (entry16 idx)) :
    ∃ t v, exec i s = .next t ∧ t.responses = s.responses ++ [⟨.ok, v⟩] := by
  cases i with
  | bld16 => exact ⟨_, _, exec_bld16 s, rfl⟩
  | upd16 crc byte => exact ⟨_, _, exec_upd16_of_read hbuilt (hread _), rfl⟩
  | rdt16 idx => exact ⟨_, _, (exec_rdt16_eq_ok_iff hbuilt idx _).mpr (hread idx), rfl⟩
  | bld32 | upd32 _ _ | rdt32 _ => cases hi

theorem exec_crc32_ok_of_table {i : Instr} {s : State} (hi : isCrc32 i = true) (hbuilt : s.built32 = true)
    (hread : ∀ idx, s.t32.read idx = some (entry32 idx)) :
    ∃ t v, exec i s = .next t ∧ t.responses = s.responses ++ [⟨.ok, v⟩] := by
  cases i with
  | bld32 => exact ⟨_, _, exec_bld32 s, rfl⟩
  | upd32 crc byte => exact ⟨_, _, exec_upd32_of_read hbuilt (hread _), rfl⟩
  | rdt32 idx => exact ⟨_, _, (exec_rdt32_eq_ok_iff hbuilt idx _).mpr (hread idx), rfl⟩
  | bld16 | upd16 _ _ | rdt16 _ => cases hi

/-- Settles O39: the fill makes every entry read its value, whatever the memory was. -/
theorem buildRecoversFromNotBuilt : Obligations.BuildRecoversFromNotBuilt := by
  refine ⟨fun i s hi => ?_, fun i s hi => ?_⟩
  · obtain ⟨u, v, hexec, hresponse⟩ := exec_crc16_ok_of_table
      (s := respond .ok 0 (setBuilt16 (writeT16 entry16 s))) hi rfl (Laws.Memory.read_writeAll entry16 s.t16)
    exact ⟨_, u, v, exec_bld16 s, hexec, hresponse⟩
  · obtain ⟨u, v, hexec, hresponse⟩ := exec_crc32_ok_of_table
      (s := respond .ok 0 (setBuilt32 (writeT32 entry32 s))) hi rfl (Laws.Memory.read_writeAll entry32 s.t32)
    exact ⟨_, u, v, exec_bld32 s, hexec, hresponse⟩

/-! ## The other variant's half (20_memory.md R28) -/

/-- Another CRC16 half in place. -/
def withHalf16 (m : Memory 16) (b : Bool) (s : State) : State := { s with t16 := m, built16 := b }

/-- Another CRC32 half in place. -/
def withHalf32 (m : Memory 32) (b : Bool) (s : State) : State := { s with t32 := m, built32 := b }

/-- Where the flag and the entry looked up are given, the answer commutes with any change of the state that responding does. -/
theorem answerFromTable_mapNext {f : State → State} (hf : ∀ st v s, respond st v (f s) = f (respond st v s))
    (built : Bool) (value : Option (BitVec 32)) (s : State) :
    answerFromTable built value (f s) = mapNext f (answerFromTable built value s) := by
  cases built with
  | false => exact congrArg Host.Outcome.next (hf .errNotBuilt 0 s)
  | true =>
    cases value with
    | none => rfl
    | some v => exact congrArg Host.Outcome.next (hf .ok v s)

theorem exec_withHalf32 {i : Instr} (hi : isCrc16 i = true) (m : Memory 32) (b : Bool) (s : State) :
    exec i (withHalf32 m b s) = mapNext (withHalf32 m b) (exec i s) := by
  cases i with
  | bld16 => rfl
  | upd16 _ _ | rdt16 _ => exact answerFromTable_mapNext (fun _ _ _ => rfl) _ _ s
  | bld32 | upd32 _ _ | rdt32 _ => cases hi

theorem exec_withHalf16 {i : Instr} (hi : isCrc32 i = true) (m : Memory 16) (b : Bool) (s : State) :
    exec i (withHalf16 m b s) = mapNext (withHalf16 m b) (exec i s) := by
  cases i with
  | bld32 => rfl
  | upd32 _ _ | rdt32 _ => exact answerFromTable_mapNext (fun _ _ _ => rfl) _ _ s
  | bld16 | upd16 _ _ | rdt16 _ => cases hi

/-- Settles O40: what a command looks up lies in its own half, and so does what it writes. -/
theorem variantsShareNoState : Obligations.VariantsShareNoState :=
  ⟨fun _ s m b hi => exec_withHalf32 hi m b s, fun _ s m b hi => exec_withHalf16 hi m b s⟩

end Sys2Proof.Proofs
end

section
/-! The host's boot and sessions (43_session_protocol.md R69, R70, 70_reset_and_hazards.md R96): what a boot leaves, that the cutting of
the bytes plays no part, and that the variants do not meet in a session. -/

namespace Sys2Proof.Proofs

open Sys2Proof.Machine Sys2Proof.Safety

/-! ## Boot (R96) -/

theorem callOk_of_exec_respond {i : Instr} {s u : State} {v : BitVec 32} (h : exec i s = .next (respond .ok v u)) :
    callOk i s = some (v, respond .ok v u) := by
  have hlast : (respond .ok v u).responses.getLast? = some ⟨.ok, v⟩ := List.getLast?_concat
  simp only [callOk, transact, step_issueFirst_encode, h, hlast, Option.map_some, if_true]

theorem callOk_bld16 (s : State) : callOk .bld16 s = some (0, respond .ok 0 (setBuilt16 (writeT16 entry16 s))) :=
  callOk_of_exec_respond (exec_bld16 s)

theorem callOk_bld32 (s : State) : callOk .bld32 s = some (0, respond .ok 0 (setBuilt32 (writeT32 entry32 s))) :=
  callOk_of_exec_respond (exec_bld32 s)

/-- The state after the boot: the builds of the active variants, one after the other. -/
def booted (v : Variants) (s : State) : State :=
  let t := if v.crc16 then respond .ok 0 (setBuilt16 (writeT16 entry16 s)) else s
  if v.crc32 then respond .ok 0 (setBuilt32 (writeT32 entry32 t)) else t

theorem buildTables_eq_booted (v : Variants) (s : State) : buildTables v s = some (booted v s) := by
  obtain ⟨_ | _, _ | _⟩ := v <;> simp [buildTables, booted, callOk_bld16, callOk_bld32]

/-- A boot does to each half what one transition may: its build where the variant is active, and nothing otherwise. -/
theorem booted_blockStep (v : Variants) (s : State) : BlockStep (v.crc16 = true) (v.crc32 = true) s (booted v s) := by
  obtain ⟨_ | _, _ | _⟩ := v
  · exact ⟨.of_keep nofun, .of_keep nofun⟩
  · exact ⟨.of_keep nofun, .of_build rfl⟩
  · exact ⟨.of_build rfl, .of_keep nofun⟩
  · exact ⟨.of_build rfl, .of_build rfl⟩

theorem booted_commands (v : Variants) (s : State) : (booted v s).commands = s.commands := by
  obtain ⟨_ | _, _ | _⟩ := v <;> rfl

theorem HalfStep.built_eq_or {w : Nat} {entry : Byte → BitVec w} {active : Bool} {m m' : Memory w}
    {built built' : Bool} (h : HalfStep entry (active = true) m m' built built') : built' = (active || built) := by
  cases active with
  | false => exact (h.keep nofun).2
  | true => exact (h.build rfl).2

/-- Settles O43: each half by itself. -/
theorem bootBuildsActiveTables : Obligations.BootBuildsActiveTables := by
  intro v s hinv
  have hboot := booted_blockStep v s
  refine ⟨booted v s, buildTables_eq_booted v s, hboot.keeps_blockInv hinv, booted_commands v s,
    hboot.half16.built_eq_or, hboot.half32.built_eq_or, fun h16 => ?_, fun h32 => ?_⟩
  · exact hboot.half16.keep (by simp [h16])
  · exact hboot.half32.keep (by simp [h32])

/-! ## Chunks (R69) -/

theorem streamBytes_append (bs cs : List Byte) (r : Running) (s : State) :
    streamBytes (bs ++ cs) r s = (streamBytes bs r s).bind fun p => streamBytes cs p.1 p.2 := by
  induction bs generalizing r s with
  | nil => rfl
  | cons b bs ih =>
    rw [List.cons_append, streamBytes, streamBytes]
    cases advance b r s with
    | none => rfl
    | some p => exact ih p.1 p.2

/-- Settles O45: the functions and the host consume a sequence byte by byte. -/
theorem chunkingDoesNotMatter : Obligations.ChunkingDoesNotMatter :=
  ⟨fun _ => foldBytes_append, streamBytes_append⟩

/-! ## Both variants (R70) -/

/-- The call of an update on a built block; all it changes is the list of responses. -/
theorem callOk_upd16_of_blockInv {s : State} (hinv : BlockInv s) (hbuilt : s.built16 = true) (x : BitVec 16) (b : Byte) :
    ∃ rs, callOk (.upd16 x b) s = some ((upd16 entry16 x b).setWidth 32, withResponses s rs) :=
  ⟨_, callOk_of_exec (exec_upd16_of_halfInv hinv.half16 hbuilt x b)⟩

theorem callOk_upd32_of_blockInv {s : State} (hinv : BlockInv s) (hbuilt : s.built32 = true) (y : BitVec 32) (b : Byte) :
    ∃ rs, callOk (.upd32 y b) s = some (upd32 entry32 y b, withResponses s rs) :=
  ⟨_, callOk_of_exec (exec_upd32_of_halfInv hinv.half32 hbuilt y b)⟩

/-- Settles O46: the results are the folds of each variant, and an update's value does not depend on the responses before it. -/
theorem variantsIndependentInSession : Obligations.VariantsIndependentInSession := by
  refine ⟨fun bs s hinv h16 h32 => ?_, fun s x y b hinv h16 h32 => ?_⟩
  · obtain ⟨_, hsession16⟩ := session_of_blockInv (v := ⟨true, false⟩) hinv (fun _ => h16) (fun _ => h32) bs
    obtain ⟨_, hsession32⟩ := session_of_blockInv (v := ⟨false, true⟩) hinv (fun _ => h16) (fun _ => h32) bs
    obtain ⟨_, hsession⟩ := session_of_blockInv (v := ⟨true, true⟩) hinv (fun _ => h16) (fun _ => h32) bs
    rw [finishSession_foldRunning] at hsession16 hsession32 hsession
    exact ⟨_, _, _, _, _, hsession16, hsession32, hsession⟩
  · obtain ⟨rs, hcall16⟩ := callOk_upd16_of_blockInv hinv h16 x b
    obtain ⟨_, hcall32'⟩ := callOk_upd32_of_blockInv (blockInv_withResponses hinv rs) h32 y b
    obtain ⟨qs, hcall32⟩ := callOk_upd32_of_blockInv hinv h32 y b
    obtain ⟨_, hcall16'⟩ := callOk_upd16_of_blockInv (blockInv_withResponses hinv qs) h16 x b
    exact ⟨_, _, _, _, _, _, hcall16, hcall32', hcall32, hcall16'⟩

end Sys2Proof.Proofs
end
